-- ==== Sys2Proof/Word.lean ====
section
/-! DEFINITION. The word types of the core: XLEN = 32, byte-addressed memory, 32 general registers (R8, R13, R30). -/

namespace Sys2Proof

/-- A register value, an address or an instruction word: 32 bits (R8). -/
abbrev Word := BitVec 32

/-- One byte of memory. -/
abbrev Byte := BitVec 8

/-- A general register's index, 0 to 31 (R30). -/
abbrev RegIdx := Fin 32

end Sys2Proof
end

