-- ==== Sys2Proof/FaultRecord.lean ====
section
/-! DEFINITION. Access widths, access kinds and the fault record of R261 and R262. -/

namespace Sys2Proof

/-- The width of a memory access: 1, 2 or 4 bytes (R71). -/
inductive Width where
  | byte
  | half
  | word
deriving DecidableEq, Repr

/-- The kind of a memory access (R65, R66, R262). -/
inductive AccessKind where
  | fetch
  | load
  | store
  | image
deriving DecidableEq, Repr

/-- A fault record: the six kinds of R262 with the fields each one records. The kind's code is
`FaultRecord.code`. The address is a natural number, so that an address formed by an integer sum that
does not wrap (R75, R151) is reported as it was made (log 6). The form is log 18. -/
inductive FaultRecord where
  /-- code 1: the opcode is none of the ten of R114. -/
  | illegalOpcode (word : Word) (opcode : BitVec 7)
  /-- code 2: an unmapped funct3 of LOAD, STORE, BRANCH or JALR. -/
  | illegalFunct3 (word : Word) (opcode : BitVec 7) (funct3 : BitVec 3)
  /-- code 3: unmapped upper bits of an OP-IMM shift. -/
  | illegalShiftImm (word : Word) (funct3 : BitVec 3) (immHi : BitVec 7)
  /-- code 4: an unmapped composite key of OP. -/
  | illegalRKey (word : Word) (key : BitVec 10)
  /-- code 5: the page index of the address is not below NUM_PAGES. -/
  | memOutOfRange (address : Nat) (width : Width) (access : AccessKind)
  /-- code 6: a 2- or 4-byte access whose bytes do not all lie in one page. -/
  | memCrossPage (address : Nat) (width : Width) (access : AccessKind)
deriving DecidableEq, Repr

end Sys2Proof
end

