-- ==== Sys2Proof/WellFormed.lean ====
section
/-! DEFINITION. The checks that an instruction term stands for a word: a byte offset is even (R110, R112), and
SYSTEM_OTHER is neither ECALL nor EBREAK (R242). Every other operand fills its field. -/

namespace Sys2Proof

/-- Bits 31:7 of the word of ECALL, 0x00000073 (R240). -/
def ecallUpper : BitVec 25 := 0#25

/-- Bits 31:7 of the word of EBREAK, 0x00100073 (R241). -/
def ebreakUpper : BitVec 25 := 0x2000#25

def Instr.wellFormed : Instr → Bool
  | .jal _ offset => !offset.getLsbD 0
  | .beq _ _ offset => !offset.getLsbD 0
  | .bne _ _ offset => !offset.getLsbD 0
  | .blt _ _ offset => !offset.getLsbD 0
  | .bge _ _ offset => !offset.getLsbD 0
  | .bltu _ _ offset => !offset.getLsbD 0
  | .bgeu _ _ offset => !offset.getLsbD 0
  | .systemOther upper => upper != ecallUpper && upper != ebreakUpper
  | .lui _ _ | .jalr _ _ _ => true
  | .lb _ _ _ | .lh _ _ _ | .lw _ _ _ | .lbu _ _ _ | .lhu _ _ _ => true
  | .sb _ _ _ | .sh _ _ _ | .sw _ _ _ => true
  | .addi _ _ _ | .slti _ _ _ | .sltiu _ _ _ | .xori _ _ _ | .ori _ _ _ | .andi _ _ _ => true
  | .slli _ _ _ | .srli _ _ _ | .srai _ _ _ => true
  | .add _ _ _ | .sub _ _ _ | .sll _ _ _ | .slt _ _ _ | .sltu _ _ _ => true
  | .xor _ _ _ | .srl _ _ _ | .sra _ _ _ | .or _ _ _ | .and _ _ _ => true
  | .mul _ _ _ | .mulh _ _ _ | .mulhsu _ _ _ | .mulhu _ _ _ => true
  | .div _ _ _ | .divu _ _ _ | .rem _ _ _ | .remu _ _ _ => true
  | .ecall | .ebreak | .zeroHalt _ => true

end Sys2Proof
end

