-- ==== Sys2Proof/Decode.lean ====
section
/-! DEFINITION. The decoder (R114 to R125), total on all 2^32 words, and after it the encoder (R102 to R107).
The numeric opcode, funct3 and funct7 values are the standard ones the spec supplies (R114, D20, GK1; log 9). -/

namespace Sys2Proof

/-! ## Instruction fields (R15, R101) and immediates (R108 to R113) -/

def opcodeField (w : Word) : BitVec 7 := w.extractLsb' 0 7
def funct3Field (w : Word) : BitVec 3 := w.extractLsb' 12 3
def funct7Field (w : Word) : BitVec 7 := w.extractLsb' 25 7
def rdField (w : Word) : RegIdx := (w.extractLsb' 7 5).toFin
def rs1Field (w : Word) : RegIdx := (w.extractLsb' 15 5).toFin
def rs2Field (w : Word) : RegIdx := (w.extractLsb' 20 5).toFin
/-- `instr[24:20]` of the shift immediates (R113). -/
def shamtField (w : Word) : BitVec 5 := w.extractLsb' 20 5
/-- Bits 31:7 of a halting word. -/
def upperField (w : Word) : BitVec 25 := w.extractLsb' 7 25

/-- The composite key `(funct7 << 3) | funct3` (R119). -/
def keyField (w : Word) : BitVec 10 := funct7Field w ++ funct3Field w

/-- The 12 bits of an I-format immediate (R108). -/
def immIField (w : Word) : BitVec 12 := w.extractLsb' 20 12
/-- The 12 bits of an S-format immediate (R109). -/
def immSField (w : Word) : BitVec 12 := w.extractLsb' 25 7 ++ w.extractLsb' 7 5
/-- The 13 bits of a B-format byte offset (R110). -/
def immBField (w : Word) : BitVec 13 :=
  w.extractLsb' 31 1 ++ w.extractLsb' 7 1 ++ w.extractLsb' 25 6 ++ w.extractLsb' 8 4 ++ 0#1
/-- The 20 bits of a U-format immediate (R111). -/
def immUField (w : Word) : BitVec 20 := w.extractLsb' 12 20
/-- The 21 bits of a J-format byte offset (R112). -/
def immJField (w : Word) : BitVec 21 :=
  w.extractLsb' 31 1 ++ w.extractLsb' 12 8 ++ w.extractLsb' 20 1 ++ w.extractLsb' 21 10 ++ 0#1

/-! ## The decoder (R125) -/

/-- What a word decodes to: an instruction (the halting words of R121 are instructions of their own rows) or a decode
fault that names what is wrong (R124). -/
inductive Decoded where
  | instr (i : Instr)
  | illegal (f : FaultRecord)
deriving DecidableEq, Repr

/-- The fault of an unmapped funct3 (R115 to R117, R120, R124). -/
def illegalFunct3 (w : Word) : Decoded := .illegal (.illegalFunct3 w (opcodeField w) (funct3Field w))

/-- The fault of unmapped upper bits of a shift immediate (R118, R124). -/
def illegalShiftImm (w : Word) : Decoded := .illegal (.illegalShiftImm w (funct3Field w) (funct7Field w))

/-- JALR needs funct3 = 000 (R120). -/
def decodeJalr (w : Word) : Decoded :=
  match funct3Field w with
  | 0b000#3 => .instr (.jalr (rdField w) (rs1Field w) (immIField w))
  | _ => illegalFunct3 w

/-- R117. -/
def decodeBranch (w : Word) : Decoded :=
  match funct3Field w with
  | 0b000#3 => .instr (.beq (rs1Field w) (rs2Field w) (immBField w))
  | 0b001#3 => .instr (.bne (rs1Field w) (rs2Field w) (immBField w))
  | 0b100#3 => .instr (.blt (rs1Field w) (rs2Field w) (immBField w))
  | 0b101#3 => .instr (.bge (rs1Field w) (rs2Field w) (immBField w))
  | 0b110#3 => .instr (.bltu (rs1Field w) (rs2Field w) (immBField w))
  | 0b111#3 => .instr (.bgeu (rs1Field w) (rs2Field w) (immBField w))
  | _ => illegalFunct3 w

/-- R115. -/
def decodeLoad (w : Word) : Decoded :=
  match funct3Field w with
  | 0b000#3 => .instr (.lb (rdField w) (rs1Field w) (immIField w))
  | 0b001#3 => .instr (.lh (rdField w) (rs1Field w) (immIField w))
  | 0b010#3 => .instr (.lw (rdField w) (rs1Field w) (immIField w))
  | 0b100#3 => .instr (.lbu (rdField w) (rs1Field w) (immIField w))
  | 0b101#3 => .instr (.lhu (rdField w) (rs1Field w) (immIField w))
  | _ => illegalFunct3 w

/-- R116. -/
def decodeStore (w : Word) : Decoded :=
  match funct3Field w with
  | 0b000#3 => .instr (.sb (rs2Field w) (rs1Field w) (immSField w))
  | 0b001#3 => .instr (.sh (rs2Field w) (rs1Field w) (immSField w))
  | 0b010#3 => .instr (.sw (rs2Field w) (rs1Field w) (immSField w))
  | _ => illegalFunct3 w

/-- R118: funct3 001, SLLI or an unmapped shift. -/
def decodeShiftLeftImm (w : Word) : Decoded :=
  match funct7Field w with
  | 0b0000000#7 => .instr (.slli (rdField w) (rs1Field w) (shamtField w))
  | _ => illegalShiftImm w

/-- R118: funct3 101, SRLI, SRAI or an unmapped shift. -/
def decodeShiftRightImm (w : Word) : Decoded :=
  match funct7Field w with
  | 0b0000000#7 => .instr (.srli (rdField w) (rs1Field w) (shamtField w))
  | 0b0100000#7 => .instr (.srai (rdField w) (rs1Field w) (shamtField w))
  | _ => illegalShiftImm w

/-- R118. All eight funct3 values are mapped. -/
def decodeOpImm (w : Word) : Decoded :=
  match funct3Field w with
  | 0b000#3 => .instr (.addi (rdField w) (rs1Field w) (immIField w))
  | 0b001#3 => decodeShiftLeftImm w
  | 0b010#3 => .instr (.slti (rdField w) (rs1Field w) (immIField w))
  | 0b011#3 => .instr (.sltiu (rdField w) (rs1Field w) (immIField w))
  | 0b100#3 => .instr (.xori (rdField w) (rs1Field w) (immIField w))
  | 0b101#3 => decodeShiftRightImm w
  | 0b110#3 => .instr (.ori (rdField w) (rs1Field w) (immIField w))
  | _ => .instr (.andi (rdField w) (rs1Field w) (immIField w))

/-- R119: the eighteen mapped composite keys. -/
def decodeOp (w : Word) : Decoded :=
  match keyField w with
  | 0x000#10 => .instr (.add (rdField w) (rs1Field w) (rs2Field w))
  | 0x001#10 => .instr (.sll (rdField w) (rs1Field w) (rs2Field w))
  | 0x002#10 => .instr (.slt (rdField w) (rs1Field w) (rs2Field w))
  | 0x003#10 => .instr (.sltu (rdField w) (rs1Field w) (rs2Field w))
  | 0x004#10 => .instr (.xor (rdField w) (rs1Field w) (rs2Field w))
  | 0x005#10 => .instr (.srl (rdField w) (rs1Field w) (rs2Field w))
  | 0x006#10 => .instr (.or (rdField w) (rs1Field w) (rs2Field w))
  | 0x007#10 => .instr (.and (rdField w) (rs1Field w) (rs2Field w))
  | 0x100#10 => .instr (.sub (rdField w) (rs1Field w) (rs2Field w))
  | 0x105#10 => .instr (.sra (rdField w) (rs1Field w) (rs2Field w))
  | 0x008#10 => .instr (.mul (rdField w) (rs1Field w) (rs2Field w))
  | 0x009#10 => .instr (.mulh (rdField w) (rs1Field w) (rs2Field w))
  | 0x00A#10 => .instr (.mulhsu (rdField w) (rs1Field w) (rs2Field w))
  | 0x00B#10 => .instr (.mulhu (rdField w) (rs1Field w) (rs2Field w))
  | 0x00C#10 => .instr (.div (rdField w) (rs1Field w) (rs2Field w))
  | 0x00D#10 => .instr (.divu (rdField w) (rs1Field w) (rs2Field w))
  | 0x00E#10 => .instr (.rem (rdField w) (rs1Field w) (rs2Field w))
  | 0x00F#10 => .instr (.remu (rdField w) (rs1Field w) (rs2Field w))
  | key => .illegal (.illegalRKey w key)

/-- R121: every SYSTEM word halts; which row it is, R240 to R242. -/
def decodeSystem (w : Word) : Instr :=
  if upperField w = ecallUpper then .ecall
  else if upperField w = ebreakUpper then .ebreak
  else .systemOther (upperField w)

/-- The decoder: the opcode first, the function fields only inside the selected category (R125). -/
def decode (w : Word) : Decoded :=
  match opcodeField w with
  | 0x37#7 => .instr (.lui (rdField w) (immUField w))
  | 0x6F#7 => .instr (.jal (rdField w) (immJField w))
  | 0x67#7 => decodeJalr w
  | 0x63#7 => decodeBranch w
  | 0x03#7 => decodeLoad w
  | 0x23#7 => decodeStore w
  | 0x13#7 => decodeOpImm w
  | 0x33#7 => decodeOp w
  | 0x73#7 => .instr (decodeSystem w)
  | 0x00#7 => .instr (.zeroHalt (upperField w))
  | op => .illegal (.illegalOpcode w op)

/-! ## Words as stored (R68, R100) -/

/-- The word of four bytes, the first at the lowest address: little-endian (R68). -/
def wordOfBytes (b0 b1 b2 b3 : Byte) : Word := b3 ++ b2 ++ b1 ++ b0

/-- Byte `i` of a word, `v[8i+7:8i]` (R66). -/
def byteOfWord (v : Word) (i : Nat) : Byte := v.extractLsb' (8 * i) 8

/-- The decoder on four stored bytes. -/
def decodeBytes (b0 b1 b2 b3 : Byte) : Decoded := decode (wordOfBytes b0 b1 b2 b3)

/-- The 32-bit word of an opcode-table row given as `nbits` bits: every bit above `nbits` is 0 (log 15). -/
def tableWord (nbits w : Nat) : Word := BitVec.ofNat 32 (w % 2 ^ nbits)

/-- The instruction the decoder reads from an opcode-table word laid out in memory; none where it refuses (log 15). -/
def decodeTableWord (nbits w : Nat) : Option Instr :=
  let v := tableWord nbits w
  match decodeBytes (byteOfWord v 0) (byteOfWord v 1) (byteOfWord v 2) (byteOfWord v 3) with
  | .instr i => some i
  | .illegal _ => none

/-! ## The encoder -/

/-- The 5-bit field of a register index. -/
def regBits (r : RegIdx) : BitVec 5 := BitVec.ofFin r

/-- R102. -/
def encodeR (funct7 : BitVec 7) (rs2 rs1 : RegIdx) (funct3 : BitVec 3) (rd : RegIdx) (op : BitVec 7) : Word :=
  funct7 ++ regBits rs2 ++ regBits rs1 ++ funct3 ++ regBits rd ++ op

/-- R103. -/
def encodeI (imm : BitVec 12) (rs1 : RegIdx) (funct3 : BitVec 3) (rd : RegIdx) (op : BitVec 7) : Word :=
  imm ++ regBits rs1 ++ funct3 ++ regBits rd ++ op

/-- R103, the shift-immediate variant. -/
def encodeShift (funct7 : BitVec 7) (shamt : BitVec 5) (rs1 : RegIdx) (funct3 : BitVec 3) (rd : RegIdx)
    (op : BitVec 7) : Word :=
  funct7 ++ shamt ++ regBits rs1 ++ funct3 ++ regBits rd ++ op

/-- R104. -/
def encodeS (imm : BitVec 12) (rs2 rs1 : RegIdx) (funct3 : BitVec 3) (op : BitVec 7) : Word :=
  imm.extractLsb' 5 7 ++ regBits rs2 ++ regBits rs1 ++ funct3 ++ imm.extractLsb' 0 5 ++ op

/-- R105. -/
def encodeB (offset : BitVec 13) (rs2 rs1 : RegIdx) (funct3 : BitVec 3) (op : BitVec 7) : Word :=
  offset.extractLsb' 12 1 ++ offset.extractLsb' 5 6 ++ regBits rs2 ++ regBits rs1 ++ funct3 ++
    offset.extractLsb' 1 4 ++ offset.extractLsb' 11 1 ++ op

/-- R106. -/
def encodeU (imm20 : BitVec 20) (rd : RegIdx) (op : BitVec 7) : Word := imm20 ++ regBits rd ++ op

/-- R107. -/
def encodeJ (offset : BitVec 21) (rd : RegIdx) (op : BitVec 7) : Word :=
  offset.extractLsb' 20 1 ++ offset.extractLsb' 1 10 ++ offset.extractLsb' 11 1 ++ offset.extractLsb' 12 8 ++
    regBits rd ++ op

/-- A halting word: 25 upper bits and the opcode (R121). -/
def encodeHalt (upper : BitVec 25) (op : BitVec 7) : Word := upper ++ op

/-- The word of an instruction (R102 to R107, R114 to R121). -/
def encode : Instr → Word
  | .lui rd imm20 => encodeU imm20 rd 0x37#7
  | .jal rd offset => encodeJ offset rd 0x6F#7
  | .jalr rd rs1 imm => encodeI imm rs1 0b000#3 rd 0x67#7
  | .beq rs1 rs2 offset => encodeB offset rs2 rs1 0b000#3 0x63#7
  | .bne rs1 rs2 offset => encodeB offset rs2 rs1 0b001#3 0x63#7
  | .blt rs1 rs2 offset => encodeB offset rs2 rs1 0b100#3 0x63#7
  | .bge rs1 rs2 offset => encodeB offset rs2 rs1 0b101#3 0x63#7
  | .bltu rs1 rs2 offset => encodeB offset rs2 rs1 0b110#3 0x63#7
  | .bgeu rs1 rs2 offset => encodeB offset rs2 rs1 0b111#3 0x63#7
  | .lb rd rs1 imm => encodeI imm rs1 0b000#3 rd 0x03#7
  | .lh rd rs1 imm => encodeI imm rs1 0b001#3 rd 0x03#7
  | .lw rd rs1 imm => encodeI imm rs1 0b010#3 rd 0x03#7
  | .lbu rd rs1 imm => encodeI imm rs1 0b100#3 rd 0x03#7
  | .lhu rd rs1 imm => encodeI imm rs1 0b101#3 rd 0x03#7
  | .sb rs2 rs1 imm => encodeS imm rs2 rs1 0b000#3 0x23#7
  | .sh rs2 rs1 imm => encodeS imm rs2 rs1 0b001#3 0x23#7
  | .sw rs2 rs1 imm => encodeS imm rs2 rs1 0b010#3 0x23#7
  | .addi rd rs1 imm => encodeI imm rs1 0b000#3 rd 0x13#7
  | .slti rd rs1 imm => encodeI imm rs1 0b010#3 rd 0x13#7
  | .sltiu rd rs1 imm => encodeI imm rs1 0b011#3 rd 0x13#7
  | .xori rd rs1 imm => encodeI imm rs1 0b100#3 rd 0x13#7
  | .ori rd rs1 imm => encodeI imm rs1 0b110#3 rd 0x13#7
  | .andi rd rs1 imm => encodeI imm rs1 0b111#3 rd 0x13#7
  | .slli rd rs1 shamt => encodeShift 0b0000000#7 shamt rs1 0b001#3 rd 0x13#7
  | .srli rd rs1 shamt => encodeShift 0b0000000#7 shamt rs1 0b101#3 rd 0x13#7
  | .srai rd rs1 shamt => encodeShift 0b0100000#7 shamt rs1 0b101#3 rd 0x13#7
  | .add rd rs1 rs2 => encodeR 0b0000000#7 rs2 rs1 0b000#3 rd 0x33#7
  | .sub rd rs1 rs2 => encodeR 0b0100000#7 rs2 rs1 0b000#3 rd 0x33#7
  | .sll rd rs1 rs2 => encodeR 0b0000000#7 rs2 rs1 0b001#3 rd 0x33#7
  | .slt rd rs1 rs2 => encodeR 0b0000000#7 rs2 rs1 0b010#3 rd 0x33#7
  | .sltu rd rs1 rs2 => encodeR 0b0000000#7 rs2 rs1 0b011#3 rd 0x33#7
  | .xor rd rs1 rs2 => encodeR 0b0000000#7 rs2 rs1 0b100#3 rd 0x33#7
  | .srl rd rs1 rs2 => encodeR 0b0000000#7 rs2 rs1 0b101#3 rd 0x33#7
  | .sra rd rs1 rs2 => encodeR 0b0100000#7 rs2 rs1 0b101#3 rd 0x33#7
  | .or rd rs1 rs2 => encodeR 0b0000000#7 rs2 rs1 0b110#3 rd 0x33#7
  | .and rd rs1 rs2 => encodeR 0b0000000#7 rs2 rs1 0b111#3 rd 0x33#7
  | .mul rd rs1 rs2 => encodeR 0b0000001#7 rs2 rs1 0b000#3 rd 0x33#7
  | .mulh rd rs1 rs2 => encodeR 0b0000001#7 rs2 rs1 0b001#3 rd 0x33#7
  | .mulhsu rd rs1 rs2 => encodeR 0b0000001#7 rs2 rs1 0b010#3 rd 0x33#7
  | .mulhu rd rs1 rs2 => encodeR 0b0000001#7 rs2 rs1 0b011#3 rd 0x33#7
  | .div rd rs1 rs2 => encodeR 0b0000001#7 rs2 rs1 0b100#3 rd 0x33#7
  | .divu rd rs1 rs2 => encodeR 0b0000001#7 rs2 rs1 0b101#3 rd 0x33#7
  | .rem rd rs1 rs2 => encodeR 0b0000001#7 rs2 rs1 0b110#3 rd 0x33#7
  | .remu rd rs1 rs2 => encodeR 0b0000001#7 rs2 rs1 0b111#3 rd 0x33#7
  | .ecall => encodeHalt ecallUpper 0x73#7
  | .ebreak => encodeHalt ebreakUpper 0x73#7
  | .systemOther upper => encodeHalt upper 0x73#7
  | .zeroHalt upper => encodeHalt upper 0x00#7

end Sys2Proof
end

