-- ==== Sys2Proof/Config.lean ====
section
/-! DEFINITION. The parameters of the core: the memory geometry (R9) and the four behaviour selections (R10).
They are fixed when a session is constructed (R290); State holds them as one field that no step changes.
The spec leaves no value free ("No behaviour of this hardware is treated as any value", 93_implementation_defined.md),
so there is no opaque constant here. -/

namespace Sys2Proof

/-- SRA_MODE: what SRA and SRAI compute (R10, R188, R208; D13). -/
inductive SraMode where
  | arithmetic
  | rotate
deriving DecidableEq, Repr

/-- BRANCH_LINK: whether a taken branch writes x1 (R10, R170; D14). `noLink` is the spec's `None`. -/
inductive BranchLink where
  | noLink
  | linkX1
deriving DecidableEq, Repr

/-- SUBWORD_LOAD_MODE: the address a byte or half-word load reads (R10, R151; D15). -/
inductive SubwordLoadMode where
  | standard
  | observedBias
deriving DecidableEq, Repr

/-- JALR_MODE: the target of JALR (R10, R142; D10). -/
inductive JalrMode where
  | pcRelative
  | standard
deriving DecidableEq, Repr

/-- The construction arguments (R9) and the behaviour selections (R10). -/
structure Config where
  /-- MEM_SIZE: total memory size in bytes. -/
  memSize : Nat
  /-- PAGE_OFFSET_BITS: the number of offset bits of an address. -/
  pageOffsetBits : Nat
  sraMode : SraMode
  branchLink : BranchLink
  subwordLoadMode : SubwordLoadMode
  jalrMode : JalrMode
deriving DecidableEq, Repr

end Sys2Proof
end

