-- ==== Sys2Proof/Machine/Parameters.lean ====
section
/-! DEFINITION. What the geometry parameters give: pages, span, address translation (R9, R61, R62), the constraints on
them, and the parameters of the reset session (log 1, log 2). -/

namespace Sys2Proof

/-- PAGE_SIZE = 2^PAGE_OFFSET_BITS (R9, R61). -/
def Config.pageSize (c : Config) : Nat := 2 ^ c.pageOffsetBits

/-- NUM_PAGES = MEM_SIZE div PAGE_SIZE (R9, D3). -/
def Config.numPages (c : Config) : Nat := c.memSize / c.pageSize

/-- The number of addressable bytes (R9, R61). -/
def Config.span (c : Config) : Nat := c.numPages * c.pageSize

/-- The constraints of R9 (D2, D3); `new` refuses a pair that violates them (R276). -/
abbrev Config.valid (c : Config) : Prop :=
  2 ≤ c.pageOffsetBits ∧ c.pageOffsetBits ≤ 32 ∧ 1 ≤ c.numPages ∧ c.span ≤ 2 ^ 32

/-- `page_index = address >> page_offset_bits` (R62). -/
def Config.pageIndex (c : Config) (a : Nat) : Nat := a >>> c.pageOffsetBits

/-- `page_offset = address & (page_size - 1)` (R62). -/
def Config.pageOffset (c : Config) (a : Nat) : Nat := a &&& (c.pageSize - 1)

/-- A session's parameters with the behaviour selections at the spec's values (R10) and the given geometry. -/
def Config.ofGeometry (memSize pageOffsetBits : Nat) : Config where
  memSize := memSize
  pageOffsetBits := pageOffsetBits
  sraMode := .arithmetic
  branchLink := .noLink
  subwordLoadMode := .standard
  jalrMode := .pcRelative

/-- The parameters of the reset session: the spec's test geometry `new(4096, 8)` (95_test_vectors.md HI1).
DESIGN CHOICE (log 1): the spec leaves MEM_SIZE and PAGE_OFFSET_BITS open. -/
def resetConfig : Config := Config.ofGeometry 4096 8

end Sys2Proof
end

