-- ==== Sys2Proof/Machine/State.lean ====
section
/-! DEFINITION. The state of the core as plain data (R30 to R45, R290), the reasons an outcome can be a stop, and the
state after construction, which the spec treats as the reset (R290). -/

namespace Sys2Proof.Machine

/-- The bytes of every page (R45, R61) as one sparse list of address and byte, in the canonical form `Memory.wf`
(Machine/Ops.lean): address `p * PAGE_SIZE + o` is `page[p][o]` (R62, R73; log 14). -/
abbrev Memory := List Host.Cell

/-- The run status (R44). -/
inductive Status where
  /-- Constructed, not yet run. -/
  | idle
  /-- Between `run(start)` and the end of that run. -/
  | running
  /-- The last run ended at a halting word. -/
  | halted
  /-- A fatal error occurred; never left (R268). -/
  | faulted (f : FaultRecord)
deriving DecidableEq, Repr

/-- The state of one session. -/
structure State where
  /-- The construction arguments and behaviour selections, fixed for the life of the session (R9, R10, R290). -/
  cfg : Config
  /-- The program counter (R36). -/
  pc : Word
  /-- The register file (R30); `State.reg` reads it and `State.setReg` writes it, x0 included (R32). -/
  regs : Vector Word 32
  /-- The memory (R45). -/
  mem : Memory
  /-- `current_instruction_word` (R40). -/
  currentInstructionWord : Word
  /-- `current_opcode` (R41). -/
  currentOpcode : BitVec 8
  /-- The run status (R44). -/
  status : Status
deriving DecidableEq, Repr

/-- Why `step` answers a fault. A faulting instruction does not: its step answers the next state, whose status is
`faulted f` (R260; log 4). -/
inductive Fault where
  /-- Raised by `step` on a session whose status is already `faulted f`: that status is never left and no further
  step is taken (R260, R268). Safe: the hardware takes no step either. -/
  | sessionFaulted (f : FaultRecord)
deriving DecidableEq, Repr

/-- Why an outcome is a refusal. -/
inductive Refusal where
  /-- Raised by `exec` for an instruction that has no meaning yet; no arm of `exec` raises it. Safe. -/
  | notModelled (mnemonic : String)
  /-- Raised by `new` for a geometry that violates R9 (R276, D3). Safe: the spec refuses it. -/
  | badGeometry
  /-- Raised by `load_image` and `run` in a faulted session (R268, R276). Safe: the spec refuses it. -/
  | sessionFaulted (f : FaultRecord)
  /-- Raised by the host operations while the core is running: the host makes no call then (R276, R277; log 12). Safe. -/
  | runInProgress
  /-- Raised by `read_register` for an index outside 0..31 (R276, D40). Safe: the spec refuses it. -/
  | noSuchRegister (index : Nat)
deriving DecidableEq, Repr

/-- The state of a session constructed with parameters `cfg` (R290; the zeros of pc, the two shell fields and the
memory are the spec's own choice D28, log 3). -/
def State.construct (cfg : Config) : State where
  cfg := cfg
  pc := 0
  regs := Vector.replicate 32 0
  mem := []
  currentInstructionWord := 0
  currentOpcode := 0
  status := .idle

/-- The machine right after reset: construction (70_reset_and_hazards.md) with the parameters of log 1 and log 2. -/
def State.reset : State := State.construct resetConfig

end Sys2Proof.Machine
end

