-- ==== Sys2Proof/Machine/Ops.lean ====
section
/-! DEFINITION. The named operations over memory and registers, raising a fault, halting, fetching and latching. -/

namespace Sys2Proof

/-- The number of bytes of an access (R71). -/
def Width.bytes : Width → Nat
  | .byte => 1
  | .half => 2
  | .word => 4

/-- The code of a fault kind (R262). -/
def FaultRecord.code : FaultRecord → Nat
  | .illegalOpcode _ _ => 1
  | .illegalFunct3 _ _ _ => 2
  | .illegalShiftImm _ _ _ => 3
  | .illegalRKey _ _ => 4
  | .memOutOfRange _ _ _ => 5
  | .memCrossPage _ _ _ => 6

end Sys2Proof

namespace Sys2Proof.Machine

/-! ## One byte of memory -/

/-- What an address that nothing has written reads as: every byte is 0 at construction (R74, D28; log 3). -/
def unlistedByte : Byte := 0

/-- The canonical form: addresses strictly rising, no entry equal to what an unlisted address reads as. -/
abbrev Memory.wf (m : Memory) : Prop :=
  m.Pairwise (fun c d => c.1 < d.1) ∧ ∀ c ∈ m, c.2 ≠ unlistedByte

/-- The byte at an address. -/
def Memory.byte : Memory → Nat → Byte
  | [], _ => unlistedByte
  | (b, v) :: m, a => if a = b then v else Memory.byte m a

/-- Write one byte, keeping the canonical form. -/
def Memory.setByte : Memory → Nat → Byte → Memory
  | [], a, v => if v = unlistedByte then [] else [(a, v)]
  | (b, u) :: m, a, v =>
    if a < b then (if v = unlistedByte then (b, u) :: m else (a, v) :: (b, u) :: m)
    else if a = b then (if v = unlistedByte then m else (a, v) :: m)
    else (b, u) :: Memory.setByte m a v

/-! ## The accessors (R63 to R68) -/

/-- The little-endian value of the `w` bytes from address `a`, zero-extended to 32 bits (R65, R68). -/
def Memory.readLE (m : Memory) (a : Nat) : Width → Word
  | .byte => wordOfBytes (m.byte a) 0 0 0
  | .half => wordOfBytes (m.byte a) (m.byte (a + 1)) 0 0
  | .word => wordOfBytes (m.byte a) (m.byte (a + 1)) (m.byte (a + 2)) (m.byte (a + 3))

/-- Store the low `w` bytes of `v` from address `a`, little-endian (R66, R68). -/
def Memory.writeLE (m : Memory) (a : Nat) (v : Word) : Width → Memory
  | .byte => m.setByte a (byteOfWord v 0)
  | .half => (m.setByte a (byteOfWord v 0)).setByte (a + 1) (byteOfWord v 1)
  | .word =>
    (((m.setByte a (byteOfWord v 0)).setByte (a + 1) (byteOfWord v 1)).setByte (a + 2) (byteOfWord v 2)).setByte
      (a + 3) (byteOfWord v 3)

/-- The checks of an access, made before any byte is touched: range (R63), then, for more than one byte, page
crossing (R64), in that order (R67). -/
def accessFault (c : Config) (a : Nat) (w : Width) (k : AccessKind) : Option FaultRecord :=
  if c.numPages ≤ c.pageIndex a then some (.memOutOfRange a w k)
  else if w ≠ .byte ∧ c.pageSize < c.pageOffset a + w.bytes then some (.memCrossPage a w k)
  else none

/-- MemRead (R65). -/
def memRead (c : Config) (m : Memory) (a : Nat) (w : Width) (k : AccessKind) : Except FaultRecord Word :=
  match accessFault c a w k with
  | some f => .error f
  | none => .ok (m.readLE a w)

/-- MemWrite (R66). -/
def memWrite (c : Config) (m : Memory) (a : Nat) (w : Width) (k : AccessKind) (v : Word) :
    Except FaultRecord Memory :=
  match accessFault c a w k with
  | some f => .error f
  | none => .ok (m.writeLE a v w)

/-! ## Registers and the program counter -/

/-- Read a general register; x0 reads 0 (R14, R32). -/
def State.reg (s : State) (r : RegIdx) : Word := if r = 0 then 0 else s.regs[r]

/-- Write a general register; a write to x0 is discarded (R14, R32, D4). -/
def State.setReg (s : State) (r : RegIdx) (v : Word) : State :=
  if r = 0 then s else { s with regs := s.regs.set r v }

/-- Set the program counter (R14, R37). -/
def State.setPc (s : State) (a : Word) : State := { s with pc := a }

/-- `pc <- pc + 4`, modulo 2^32 (R37, R38). -/
def State.advance (s : State) : State := s.setPc (s.pc + 4)

/-- Replace the memory. -/
def State.setMem (s : State) (m : Memory) : State := { s with mem := m }

/-- Replace the run status. -/
def State.setStatus (s : State) (st : Status) : State := { s with status := st }

/-- Write a destination register and go on to the next word: the shape of every computational instruction (R37). -/
def writeBack (rd : RegIdx) (v : Word) (s : State) : Host.Outcome State Fault Refusal :=
  .next (s.setReg rd v).advance

/-! ## Raising a fault and halting

There is no return from either: the core has no trap return (R268), and a halted core goes on only when the host
calls `run` (R244). -/

/-- Raise a fault (R260): no register, memory or pc change of the faulting instruction; the two latched fields stay as
they are; the status holds the record and the run is over. -/
def raise (f : FaultRecord) (s : State) : Host.Outcome State Fault Refusal := .next (s.setStatus (.faulted f))

/-- The halt effect (R244): nothing changes but the status. -/
def halt (s : State) : Host.Outcome State Fault Refusal := .next (s.setStatus .halted)

/-! ## Fetch and latch (R46) -/

/-- Step 1 of R46: `MemRead(pc, 4)` with access kind Fetch. -/
def fetch (s : State) : Except FaultRecord Word := memRead s.cfg s.mem s.pc.toNat .word .fetch

/-- Step 2 of R46: latch the word and its opcode, zero-extended to 8 bits (R40, R41). -/
def latch (w : Word) (s : State) : State :=
  { s with currentInstructionWord := w, currentOpcode := (opcodeField w).setWidth 8 }

/-! ## A step of a session that is not running (log 5)

The spec defines a step only while `status = Running` (R46). -/

/-- A constructed core that was not run takes no step: nothing changes (R44, R46). -/
def idleStep (s : State) : Host.Outcome State Fault Refusal := .next s

/-- A halted core takes no step until the host calls `run` (R244, R275): nothing changes. -/
def haltedStep (s : State) : Host.Outcome State Fault Refusal := .next s

/-- A faulted session is over (R268): the step answers the fault it ended in. -/
def faultedStep (f : FaultRecord) (_s : State) : Host.Outcome State Fault Refusal := .fault (.sessionFaulted f)

end Sys2Proof.Machine
end

