-- ==== Sys2Proof/Machine/Operands.lean ====
section
/-! DEFINITION. Operand forms: the extension of each immediate (R108 to R112), shift amounts (R113), effective
addresses with the sub-word load bias (R150, R151), and jump and branch targets (R141, R142, R170). -/

namespace Sys2Proof.Machine

/-- `imm_I` and `imm_S`: the 12 bits sign-extended (R108, R109; D8, D9). -/
def imm12Word (imm : BitVec 12) : Word := imm.signExtend 32

/-- `imm_U`: the 20 bits above twelve zeros (R111). -/
def imm20Word (imm : BitVec 20) : Word := imm ++ 0#12

/-- `imm_B`: the 13-bit byte offset sign-extended (R110). -/
def branchOffset (offset : BitVec 13) : Word := offset.signExtend 32

/-- `imm_J`: the 21-bit byte offset sign-extended (R112). -/
def jumpOffset (offset : BitVec 21) : Word := offset.signExtend 32

/-- A register shift's amount: the low 5 bits (R113). -/
def shiftAmount (v : Word) : Nat := (v.extractLsb' 0 5).toNat

/-- The effective address of a load or store: base plus displacement modulo 2^32 (R150, D7). -/
def effectiveAddress (s : State) (rs1 : RegIdx) (imm : BitVec 12) : Word := s.reg rs1 + imm12Word imm

/-- How far beyond its effective address a load reads (R151). -/
def loadBias : SubwordLoadMode → Width → Nat
  | .standard, _ => 0
  | .observedBias, .word => 0
  | .observedBias, .half => 2
  | .observedBias, .byte => 3

/-- The address a load reads: the bias is added as an integer after the wrap (R151; log 6). -/
def loadAddress (s : State) (w : Width) (rs1 : RegIdx) (imm : BitVec 12) : Nat :=
  (effectiveAddress s rs1 imm).toNat + loadBias s.cfg.subwordLoadMode w

/-- The address a store writes; a store has no bias (R150, R151). -/
def storeAddress (s : State) (rs1 : RegIdx) (imm : BitVec 12) : Nat := (effectiveAddress s rs1 imm).toNat

/-- The target of JAL (R141). -/
def jalTarget (s : State) (offset : BitVec 21) : Word := s.pc + jumpOffset offset

/-- The target of JALR (R142): pc-relative as the source states it, or the standard one (GK10; log 16). -/
def jalrTarget (s : State) (rs1 : RegIdx) (imm : BitVec 12) : Word :=
  match s.cfg.jalrMode with
  | .pcRelative => s.pc + imm12Word imm + s.reg rs1
  | .standard => (s.reg rs1 + imm12Word imm) &&& 0xFFFFFFFE#32

/-- The target of a taken branch (R170). -/
def branchTarget (s : State) (offset : BitVec 13) : Word := s.pc + branchOffset offset

/-- The return address a jump or a linking branch writes (R141, R142, R170). -/
def linkAddress (s : State) : Word := s.pc + 4

end Sys2Proof.Machine
end

