-- ==== Sys2Proof/Machine/Alu.lean ====
section
/-! DEFINITION. The values of the shift, multiply and divide instructions (R186 to R188, R200, R203, R207, R208,
R220 to R227). Products and quotients are exact integers, narrowed at the end. -/

namespace Sys2Proof.Machine

/-- `trunc32(i)`: the word whose unsigned value is i modulo 2^32 (R13). -/
def trunc32 (i : Int) : Word := BitVec.ofInt 32 i

/-- `rotr(v, k)` for k below 32 (R13). -/
def rotr (v : Word) (k : Nat) : Word := v >>> k ||| v <<< (32 - k)

/-- SRA and SRAI (R188, R208; D13). -/
def shiftRightArith (mode : SraMode) (v : Word) (k : Nat) : Word :=
  match mode with
  | .arithmetic => v.sshiftRight k
  | .rotate => rotr v k

/-- Bits 63..32 of a product (R221 to R223): the floor shift by 32, narrowed. -/
def highWord (p : Int) : Word := trunc32 (p >>> 32)

/-- R220. -/
def mulLow (a b : Word) : Word := trunc32 ((a.toNat : Int) * (b.toNat : Int))

/-- R221. -/
def mulHighSigned (a b : Word) : Word := highWord (a.toInt * b.toInt)

/-- R222: a signed, b unsigned (GK3; log 10). -/
def mulHighSignedUnsigned (a b : Word) : Word := highWord (a.toInt * (b.toNat : Int))

/-- R223. -/
def mulHighUnsigned (a b : Word) : Word := highWord ((a.toNat : Int) * (b.toNat : Int))

/-- The overflow case of DIV and REM: -2^31 by -1 (R224, R226). -/
abbrev divOverflow (a b : Word) : Prop := a.toInt = -2 ^ 31 ∧ b.toInt = -1

/-- R224: the quotient rounded toward zero (GK2; log 10). -/
def divSigned (a b : Word) : Word :=
  if b.toInt = 0 then 0xFFFFFFFF#32
  else if divOverflow a b then 0x80000000#32
  else trunc32 (a.toInt.tdiv b.toInt)

/-- R225. -/
def divUnsigned (a b : Word) : Word :=
  if b.toNat = 0 then 0xFFFFFFFF#32 else BitVec.ofNat 32 (a.toNat / b.toNat)

/-- R226: the remainder takes the dividend's sign (GK2; log 10). -/
def remSigned (a b : Word) : Word :=
  if b.toInt = 0 then a
  else if divOverflow a b then 0
  else trunc32 (a.toInt.tmod b.toInt)

/-- R227. -/
def remUnsigned (a b : Word) : Word :=
  if b.toNat = 0 then a else BitVec.ofNat 32 (a.toNat % b.toNat)

end Sys2Proof.Machine
end

