-- ==== Sys2Proof/Machine/Flags.lean ====
section
/-! DEFINITION. The core has no flags (R42): a comparison delivers its result into a register or into the next pc.
These are the comparisons, and the word a set-if-less-than instruction writes. -/

namespace Sys2Proof.Machine

/-- `a <s b`: less-than of the two's-complement readings (R13). -/
def lessSigned (a b : Word) : Bool := decide (a.toInt < b.toInt)

/-- `a <u b`: less-than of the unsigned readings (R13). -/
def lessUnsigned (a b : Word) : Bool := decide (a.toNat < b.toNat)

/-- 1 if the comparison holds and 0 otherwise (R181, R182, R204, R205). -/
def boolWord (b : Bool) : Word := if b then 1 else 0

end Sys2Proof.Machine
end

