-- ==== Sys2Proof/Machine/AluImmediate.lean ====
section
/-! DEFINITION. Immediate ALU instructions (R180 to R188). -/

namespace Sys2Proof.Machine

/-- R180. -/
def execAddi (rd rs1 : RegIdx) (imm : BitVec 12) (s : State) : Host.Outcome State Fault Refusal :=
  writeBack rd (s.reg rs1 + imm12Word imm) s

/-- R181. -/
def execSlti (rd rs1 : RegIdx) (imm : BitVec 12) (s : State) : Host.Outcome State Fault Refusal :=
  writeBack rd (boolWord (lessSigned (s.reg rs1) (imm12Word imm))) s

/-- R182. -/
def execSltiu (rd rs1 : RegIdx) (imm : BitVec 12) (s : State) : Host.Outcome State Fault Refusal :=
  writeBack rd (boolWord (lessUnsigned (s.reg rs1) (imm12Word imm))) s

/-- R183. -/
def execXori (rd rs1 : RegIdx) (imm : BitVec 12) (s : State) : Host.Outcome State Fault Refusal :=
  writeBack rd (s.reg rs1 ^^^ imm12Word imm) s

/-- R184. -/
def execOri (rd rs1 : RegIdx) (imm : BitVec 12) (s : State) : Host.Outcome State Fault Refusal :=
  writeBack rd (s.reg rs1 ||| imm12Word imm) s

/-- R185. -/
def execAndi (rd rs1 : RegIdx) (imm : BitVec 12) (s : State) : Host.Outcome State Fault Refusal :=
  writeBack rd (s.reg rs1 &&& imm12Word imm) s

/-- R186. -/
def execSlli (rd rs1 : RegIdx) (shamt : BitVec 5) (s : State) : Host.Outcome State Fault Refusal :=
  writeBack rd (s.reg rs1 <<< shamt.toNat) s

/-- R187. -/
def execSrli (rd rs1 : RegIdx) (shamt : BitVec 5) (s : State) : Host.Outcome State Fault Refusal :=
  writeBack rd (s.reg rs1 >>> shamt.toNat) s

/-- R188. -/
def execSrai (rd rs1 : RegIdx) (shamt : BitVec 5) (s : State) : Host.Outcome State Fault Refusal :=
  writeBack rd (shiftRightArith s.cfg.sraMode (s.reg rs1) shamt.toNat) s

end Sys2Proof.Machine
end

