-- ==== Sys2Proof/Machine/AluRegister.lean ====
section
/-! DEFINITION. Register ALU instructions (R201 to R210). -/

namespace Sys2Proof.Machine

/-- R201. -/
def execAdd (rd rs1 rs2 : RegIdx) (s : State) : Host.Outcome State Fault Refusal :=
  writeBack rd (s.reg rs1 + s.reg rs2) s

/-- R202. -/
def execSub (rd rs1 rs2 : RegIdx) (s : State) : Host.Outcome State Fault Refusal :=
  writeBack rd (s.reg rs1 - s.reg rs2) s

/-- R203. -/
def execSll (rd rs1 rs2 : RegIdx) (s : State) : Host.Outcome State Fault Refusal :=
  writeBack rd (s.reg rs1 <<< shiftAmount (s.reg rs2)) s

/-- R204. -/
def execSlt (rd rs1 rs2 : RegIdx) (s : State) : Host.Outcome State Fault Refusal :=
  writeBack rd (boolWord (lessSigned (s.reg rs1) (s.reg rs2))) s

/-- R205. -/
def execSltu (rd rs1 rs2 : RegIdx) (s : State) : Host.Outcome State Fault Refusal :=
  writeBack rd (boolWord (lessUnsigned (s.reg rs1) (s.reg rs2))) s

/-- R206. -/
def execXor (rd rs1 rs2 : RegIdx) (s : State) : Host.Outcome State Fault Refusal :=
  writeBack rd (s.reg rs1 ^^^ s.reg rs2) s

/-- R207. -/
def execSrl (rd rs1 rs2 : RegIdx) (s : State) : Host.Outcome State Fault Refusal :=
  writeBack rd (s.reg rs1 >>> shiftAmount (s.reg rs2)) s

/-- R208. -/
def execSra (rd rs1 rs2 : RegIdx) (s : State) : Host.Outcome State Fault Refusal :=
  writeBack rd (shiftRightArith s.cfg.sraMode (s.reg rs1) (shiftAmount (s.reg rs2))) s

/-- R209. -/
def execOr (rd rs1 rs2 : RegIdx) (s : State) : Host.Outcome State Fault Refusal :=
  writeBack rd (s.reg rs1 ||| s.reg rs2) s

/-- R210. -/
def execAnd (rd rs1 rs2 : RegIdx) (s : State) : Host.Outcome State Fault Refusal :=
  writeBack rd (s.reg rs1 &&& s.reg rs2) s

end Sys2Proof.Machine
end

