-- ==== Sys2Proof/Machine/Branch.lean ====
section
/-! DEFINITION. Conditional branches (R170 to R176). -/

namespace Sys2Proof.Machine

/-- The link write of a taken branch: only under BRANCH_LINK = LinkX1, x1 <- pc + 4 (R170, D14, GK9; log 16). -/
def branchLinkWrite (s : State) : State :=
  match s.cfg.branchLink with
  | .noLink => s
  | .linkX1 => s.setReg 1 (linkAddress s)

/-- A branch on a condition already decided (R170). -/
def branch (taken : Bool) (offset : BitVec 13) (s : State) : Host.Outcome State Fault Refusal :=
  if taken then .next ((branchLinkWrite s).setPc (branchTarget s offset)) else .next s.advance

/-- R171. -/
def execBeq (rs1 rs2 : RegIdx) (offset : BitVec 13) (s : State) : Host.Outcome State Fault Refusal :=
  branch (s.reg rs1 == s.reg rs2) offset s

/-- R172. -/
def execBne (rs1 rs2 : RegIdx) (offset : BitVec 13) (s : State) : Host.Outcome State Fault Refusal :=
  branch (s.reg rs1 != s.reg rs2) offset s

/-- R173. -/
def execBlt (rs1 rs2 : RegIdx) (offset : BitVec 13) (s : State) : Host.Outcome State Fault Refusal :=
  branch (lessSigned (s.reg rs1) (s.reg rs2)) offset s

/-- R174. -/
def execBge (rs1 rs2 : RegIdx) (offset : BitVec 13) (s : State) : Host.Outcome State Fault Refusal :=
  branch (!lessSigned (s.reg rs1) (s.reg rs2)) offset s

/-- R175. -/
def execBltu (rs1 rs2 : RegIdx) (offset : BitVec 13) (s : State) : Host.Outcome State Fault Refusal :=
  branch (lessUnsigned (s.reg rs1) (s.reg rs2)) offset s

/-- R176. -/
def execBgeu (rs1 rs2 : RegIdx) (offset : BitVec 13) (s : State) : Host.Outcome State Fault Refusal :=
  branch (!lessUnsigned (s.reg rs1) (s.reg rs2)) offset s

end Sys2Proof.Machine
end

