-- ==== Sys2Proof/Machine/Halt.lean ====
section
/-! DEFINITION. Halting words (R240 to R244). None reads an operand. -/

namespace Sys2Proof.Machine

/-- R240. -/
def execEcall (s : State) : Host.Outcome State Fault Refusal := halt s

/-- R241. -/
def execEbreak (s : State) : Host.Outcome State Fault Refusal := halt s

/-- R242: every other SYSTEM word, CSR instructions, MRET, SRET, WFI and SFENCE.VMA among them. -/
def execSystemOther (_upper : BitVec 25) (s : State) : Host.Outcome State Fault Refusal := halt s

/-- R243: every word of opcode zero. -/
def execZeroHalt (_upper : BitVec 25) (s : State) : Host.Outcome State Fault Refusal := halt s

end Sys2Proof.Machine
end

