-- ==== Sys2Proof/Machine/LoadStore.lean ====
section
/-! DEFINITION. Loads and stores (R150 to R160). -/

namespace Sys2Proof.Machine

/-- `sext_8` of the byte read (R152). -/
def signExtendByte (v : Word) : Word := (v.extractLsb' 0 8).signExtend 32
/-- `sext_16` of the half-word read (R153). -/
def signExtendHalf (v : Word) : Word := (v.extractLsb' 0 16).signExtend 32
/-- `zext_8` of the byte read (R155). -/
def zeroExtendByte (v : Word) : Word := (v.extractLsb' 0 8).setWidth 32
/-- `zext_16` of the half-word read (R156). -/
def zeroExtendHalf (v : Word) : Word := (v.extractLsb' 0 16).setWidth 32

/-- A load: one read, which may fault, then the extended value into rd (R150, R151). The read is made also for
rd = x0 (R152). -/
def load (w : Width) (extend : Word → Word) (rd rs1 : RegIdx) (imm : BitVec 12) (s : State) :
    Host.Outcome State Fault Refusal :=
  match memRead s.cfg s.mem (loadAddress s w rs1 imm) w .load with
  | .error f => raise f s
  | .ok v => writeBack rd (extend v) s

/-- A store: one write of the low bytes of rs2, which may fault (R150, R157). -/
def store (w : Width) (rs2 rs1 : RegIdx) (imm : BitVec 12) (s : State) : Host.Outcome State Fault Refusal :=
  match memWrite s.cfg s.mem (storeAddress s rs1 imm) w .store (s.reg rs2) with
  | .error f => raise f s
  | .ok m => .next (s.setMem m).advance

/-- R152. -/
def execLb (rd rs1 : RegIdx) (imm : BitVec 12) (s : State) : Host.Outcome State Fault Refusal :=
  load .byte signExtendByte rd rs1 imm s

/-- R153. -/
def execLh (rd rs1 : RegIdx) (imm : BitVec 12) (s : State) : Host.Outcome State Fault Refusal :=
  load .half signExtendHalf rd rs1 imm s

/-- R154. -/
def execLw (rd rs1 : RegIdx) (imm : BitVec 12) (s : State) : Host.Outcome State Fault Refusal :=
  load .word id rd rs1 imm s

/-- R155. -/
def execLbu (rd rs1 : RegIdx) (imm : BitVec 12) (s : State) : Host.Outcome State Fault Refusal :=
  load .byte zeroExtendByte rd rs1 imm s

/-- R156. -/
def execLhu (rd rs1 : RegIdx) (imm : BitVec 12) (s : State) : Host.Outcome State Fault Refusal :=
  load .half zeroExtendHalf rd rs1 imm s

/-- R158. -/
def execSb (rs2 rs1 : RegIdx) (imm : BitVec 12) (s : State) : Host.Outcome State Fault Refusal :=
  store .byte rs2 rs1 imm s

/-- R159. -/
def execSh (rs2 rs1 : RegIdx) (imm : BitVec 12) (s : State) : Host.Outcome State Fault Refusal :=
  store .half rs2 rs1 imm s

/-- R160. -/
def execSw (rs2 rs1 : RegIdx) (imm : BitVec 12) (s : State) : Host.Outcome State Fault Refusal :=
  store .word rs2 rs1 imm s

end Sys2Proof.Machine
end

