-- ==== Sys2Proof/Machine/MulDiv.lean ====
section
/-! DEFINITION. Multiply and divide instructions (R220 to R227). None ever faults (R269). -/

namespace Sys2Proof.Machine

/-- R220. -/
def execMul (rd rs1 rs2 : RegIdx) (s : State) : Host.Outcome State Fault Refusal :=
  writeBack rd (mulLow (s.reg rs1) (s.reg rs2)) s

/-- R221. -/
def execMulh (rd rs1 rs2 : RegIdx) (s : State) : Host.Outcome State Fault Refusal :=
  writeBack rd (mulHighSigned (s.reg rs1) (s.reg rs2)) s

/-- R222. -/
def execMulhsu (rd rs1 rs2 : RegIdx) (s : State) : Host.Outcome State Fault Refusal :=
  writeBack rd (mulHighSignedUnsigned (s.reg rs1) (s.reg rs2)) s

/-- R223. -/
def execMulhu (rd rs1 rs2 : RegIdx) (s : State) : Host.Outcome State Fault Refusal :=
  writeBack rd (mulHighUnsigned (s.reg rs1) (s.reg rs2)) s

/-- R224. -/
def execDiv (rd rs1 rs2 : RegIdx) (s : State) : Host.Outcome State Fault Refusal :=
  writeBack rd (divSigned (s.reg rs1) (s.reg rs2)) s

/-- R225. -/
def execDivu (rd rs1 rs2 : RegIdx) (s : State) : Host.Outcome State Fault Refusal :=
  writeBack rd (divUnsigned (s.reg rs1) (s.reg rs2)) s

/-- R226. -/
def execRem (rd rs1 rs2 : RegIdx) (s : State) : Host.Outcome State Fault Refusal :=
  writeBack rd (remSigned (s.reg rs1) (s.reg rs2)) s

/-- R227. -/
def execRemu (rd rs1 rs2 : RegIdx) (s : State) : Host.Outcome State Fault Refusal :=
  writeBack rd (remUnsigned (s.reg rs1) (s.reg rs2)) s

end Sys2Proof.Machine
end

