-- ==== Sys2Proof/Machine/UpperJump.lean ====
section
/-! DEFINITION. LUI, JAL, JALR (R140 to R142). -/

namespace Sys2Proof.Machine

/-- Write the return address and go to a target that was computed from the old state (R34, R141, R142). -/
def jumpAndLink (rd : RegIdx) (target : Word) (s : State) : Host.Outcome State Fault Refusal :=
  .next ((s.setReg rd (linkAddress s)).setPc target)

/-- R140. -/
def execLui (rd : RegIdx) (imm20 : BitVec 20) (s : State) : Host.Outcome State Fault Refusal :=
  writeBack rd (imm20Word imm20) s

/-- R141. -/
def execJal (rd : RegIdx) (offset : BitVec 21) (s : State) : Host.Outcome State Fault Refusal :=
  jumpAndLink rd (jalTarget s offset) s

/-- R142. -/
def execJalr (rd rs1 : RegIdx) (imm : BitVec 12) (s : State) : Host.Outcome State Fault Refusal :=
  jumpAndLink rd (jalrTarget s rs1 imm) s

end Sys2Proof.Machine
end

