-- ==== Sys2Proof/Machine/Step.lean ====
section
/-! DEFINITION. One step of the core (R46), and the placing of a word where the next step fetches it. -/

namespace Sys2Proof.Machine

/-- One fetch-decode-execute cycle of a running core (R46). -/
def cycle (s : State) : Host.Outcome State Fault Refusal :=
  match fetch s with
  | .error f => raise f s
  | .ok w =>
    match decode w with
    | .illegal f => raise f (latch w s)
    | .instr i => exec i (latch w s)

/-- One step: the cycle while the status is Running (R46); otherwise no step is taken (log 5). -/
def step (s : State) : Host.Outcome State Fault Refusal :=
  match s.status with
  | .running => cycle s
  | .idle => idleStep s
  | .halted => haltedStep s
  | .faulted f => faultedStep f s

/-- Where `withFetchWord` places the word: at pc, or at 0 where no word can be fetched at pc (log 15). -/
def fetchPlace (s : State) : Word :=
  match accessFault s.cfg s.pc.toNat .word .fetch with
  | none => s.pc
  | some _ => 0

/-- `s` with an opcode-table word stored where `step` fetches its next instruction, and running: what the host's
`load_image` of that word and `run` do (R292; log 7, log 15). -/
def State.withFetchWord (s : State) (nbits w : Nat) : State :=
  { s with
    pc := fetchPlace s
    mem := s.mem.writeLE (fetchPlace s).toNat (tableWord nbits w) .word
    status := .running }

end Sys2Proof.Machine
end

