-- ==== Sys2Proof/Machine/Assembler.lean ====
section
/-! DEFINITION. The assembler notation the spec adopts (R31, R126, R127; GK4, GK5; log 17): register aliases, the text of an
instruction, and the pseudo-instructions whose whole expansion R127 gives. None of it is hardware: `step` uses none of it.
The pseudo-instructions that begin with AUIPC (`call`, `tail`, `la`, `lla`, symbol loads) fault at that word, `fence` and
`fence.i` fault at theirs, and the CSR ones and `unimp` are halting words (R122, R127, R242). -/

namespace Sys2Proof.Machine

/-- The architectural name (R31). -/
def registerName (r : RegIdx) : String := "x" ++ toString r.val

/-- The ABI alias (R31). -/
def abiName (r : RegIdx) : String :=
  ["zero", "ra", "sp", "gp", "tp", "t0", "t1", "t2", "s0", "s1", "a0", "a1", "a2", "a3", "a4", "a5"].getD r.val
    (["a6", "a7", "s2", "s3", "s4", "s5", "s6", "s7", "s8", "s9", "s10", "s11", "t3", "t4", "t5", "t6"].getD
      (r.val - 16) "")

/-- `op a, b, c` (R126). -/
def text3 (op a b c : String) : String := op ++ " " ++ a ++ ", " ++ b ++ ", " ++ c

/-- `op r, imm(base)` (R126). -/
def textBase (op : String) (r base : RegIdx) (imm : BitVec 12) : String :=
  op ++ " " ++ registerName r ++ ", " ++ toString imm.toInt ++ "(" ++ registerName base ++ ")"

/-- `op rd, rs1, rs2`. -/
def textR (op : String) (rd rs1 rs2 : RegIdx) : String :=
  text3 op (registerName rd) (registerName rs1) (registerName rs2)

/-- `op rd, rs1, imm`. -/
def textI (op : String) (rd rs1 : RegIdx) (imm : BitVec 12) : String :=
  text3 op (registerName rd) (registerName rs1) (toString imm.toInt)

/-- `op rd, rs1, shamt`. -/
def textShift (op : String) (rd rs1 : RegIdx) (shamt : BitVec 5) : String :=
  text3 op (registerName rd) (registerName rs1) (toString shamt.toNat)

/-- `op rs1, rs2, offset`. -/
def textB (op : String) (rs1 rs2 : RegIdx) (offset : BitVec 13) : String :=
  text3 op (registerName rs1) (registerName rs2) (toString offset.toInt)

/-- The text of an instruction in the syntax of R126; none for the halting words R126 gives no text for. -/
def assemblyText : Instr → Option String
  | .lui rd imm20 => some ("lui " ++ registerName rd ++ ", " ++ toString imm20.toNat)
  | .jal rd offset => some ("jal " ++ registerName rd ++ ", " ++ toString offset.toInt)
  | .jalr rd rs1 imm => some (textBase "jalr" rd rs1 imm)
  | .beq rs1 rs2 offset => some (textB "beq" rs1 rs2 offset)
  | .bne rs1 rs2 offset => some (textB "bne" rs1 rs2 offset)
  | .blt rs1 rs2 offset => some (textB "blt" rs1 rs2 offset)
  | .bge rs1 rs2 offset => some (textB "bge" rs1 rs2 offset)
  | .bltu rs1 rs2 offset => some (textB "bltu" rs1 rs2 offset)
  | .bgeu rs1 rs2 offset => some (textB "bgeu" rs1 rs2 offset)
  | .lb rd rs1 imm => some (textBase "lb" rd rs1 imm)
  | .lh rd rs1 imm => some (textBase "lh" rd rs1 imm)
  | .lw rd rs1 imm => some (textBase "lw" rd rs1 imm)
  | .lbu rd rs1 imm => some (textBase "lbu" rd rs1 imm)
  | .lhu rd rs1 imm => some (textBase "lhu" rd rs1 imm)
  | .sb rs2 rs1 imm => some (textBase "sb" rs2 rs1 imm)
  | .sh rs2 rs1 imm => some (textBase "sh" rs2 rs1 imm)
  | .sw rs2 rs1 imm => some (textBase "sw" rs2 rs1 imm)
  | .addi rd rs1 imm => some (textI "addi" rd rs1 imm)
  | .slti rd rs1 imm => some (textI "slti" rd rs1 imm)
  | .sltiu rd rs1 imm => some (textI "sltiu" rd rs1 imm)
  | .xori rd rs1 imm => some (textI "xori" rd rs1 imm)
  | .ori rd rs1 imm => some (textI "ori" rd rs1 imm)
  | .andi rd rs1 imm => some (textI "andi" rd rs1 imm)
  | .slli rd rs1 shamt => some (textShift "slli" rd rs1 shamt)
  | .srli rd rs1 shamt => some (textShift "srli" rd rs1 shamt)
  | .srai rd rs1 shamt => some (textShift "srai" rd rs1 shamt)
  | .add rd rs1 rs2 => some (textR "add" rd rs1 rs2)
  | .sub rd rs1 rs2 => some (textR "sub" rd rs1 rs2)
  | .sll rd rs1 rs2 => some (textR "sll" rd rs1 rs2)
  | .slt rd rs1 rs2 => some (textR "slt" rd rs1 rs2)
  | .sltu rd rs1 rs2 => some (textR "sltu" rd rs1 rs2)
  | .xor rd rs1 rs2 => some (textR "xor" rd rs1 rs2)
  | .srl rd rs1 rs2 => some (textR "srl" rd rs1 rs2)
  | .sra rd rs1 rs2 => some (textR "sra" rd rs1 rs2)
  | .or rd rs1 rs2 => some (textR "or" rd rs1 rs2)
  | .and rd rs1 rs2 => some (textR "and" rd rs1 rs2)
  | .mul rd rs1 rs2 => some (textR "mul" rd rs1 rs2)
  | .mulh rd rs1 rs2 => some (textR "mulh" rd rs1 rs2)
  | .mulhsu rd rs1 rs2 => some (textR "mulhsu" rd rs1 rs2)
  | .mulhu rd rs1 rs2 => some (textR "mulhu" rd rs1 rs2)
  | .div rd rs1 rs2 => some (textR "div" rd rs1 rs2)
  | .divu rd rs1 rs2 => some (textR "divu" rd rs1 rs2)
  | .rem rd rs1 rs2 => some (textR "rem" rd rs1 rs2)
  | .remu rd rs1 rs2 => some (textR "remu" rd rs1 rs2)
  | .ecall => some "ecall"
  | .ebreak => some "ebreak"
  | .systemOther _ => none
  | .zeroHalt _ => none

/-- The pseudo-instructions of R127 with a whole expansion there. -/
inductive Pseudo where
  | nop
  | li (rd : RegIdx) (imm : Word)
  | mv (rd rs : RegIdx)
  | not (rd rs : RegIdx)
  | neg (rd rs : RegIdx)
  | seqz (rd rs : RegIdx)
  | snez (rd rs : RegIdx)
  | sltz (rd rs : RegIdx)
  | sgtz (rd rs : RegIdx)
  | beqz (rs : RegIdx) (offset : BitVec 13)
  | bnez (rs : RegIdx) (offset : BitVec 13)
  | blez (rs : RegIdx) (offset : BitVec 13)
  | bgez (rs : RegIdx) (offset : BitVec 13)
  | bltz (rs : RegIdx) (offset : BitVec 13)
  | bgtz (rs : RegIdx) (offset : BitVec 13)
  | bgt (rs rt : RegIdx) (offset : BitVec 13)
  | ble (rs rt : RegIdx) (offset : BitVec 13)
  | bgtu (rs rt : RegIdx) (offset : BitVec 13)
  | bleu (rs rt : RegIdx) (offset : BitVec 13)
  | j (offset : BitVec 21)
  | jal (offset : BitVec 21)
  | jr (rs : RegIdx)
  | jalr (rs : RegIdx)
  | ret
deriving DecidableEq, Repr

/-- Whether a word is the sign extension of its low 12 bits. -/
def fitsImm12 (imm : Word) : Bool := (imm.extractLsb' 0 12).signExtend 32 == imm

/-- `li rd, imm` (R127): one ADDI in 12-bit range, else LUI of `(imm + 0x800) >> 12` and ADDI of the low 12 bits. -/
def expandLi (rd : RegIdx) (imm : Word) : List Instr :=
  if fitsImm12 imm then [.addi rd 0 (imm.extractLsb' 0 12)]
  else [.lui rd ((imm + 0x800#32).extractLsb' 12 20), .addi rd rd (imm.extractLsb' 0 12)]

/-- The expansion of a pseudo-instruction (R127). -/
def expand : Pseudo → List Instr
  | .nop => [.addi 0 0 0]
  | .li rd imm => expandLi rd imm
  | .mv rd rs => [.addi rd rs 0]
  | .not rd rs => [.xori rd rs (-1)]
  | .neg rd rs => [.sub rd 0 rs]
  | .seqz rd rs => [.sltiu rd rs 1]
  | .snez rd rs => [.sltu rd 0 rs]
  | .sltz rd rs => [.slt rd rs 0]
  | .sgtz rd rs => [.slt rd 0 rs]
  | .beqz rs offset => [.beq rs 0 offset]
  | .bnez rs offset => [.bne rs 0 offset]
  | .blez rs offset => [.bge 0 rs offset]
  | .bgez rs offset => [.bge rs 0 offset]
  | .bltz rs offset => [.blt rs 0 offset]
  | .bgtz rs offset => [.blt 0 rs offset]
  | .bgt rs rt offset => [.blt rt rs offset]
  | .ble rs rt offset => [.bge rt rs offset]
  | .bgtu rs rt offset => [.bltu rt rs offset]
  | .bleu rs rt offset => [.bgeu rt rs offset]
  | .j offset => [.jal 0 offset]
  | .jal offset => [.jal 1 offset]
  | .jr rs => [.jalr 0 rs 0]
  | .jalr rs => [.jalr 1 rs 0]
  | .ret => [.jalr 0 1 0]

end Sys2Proof.Machine
end

