-- ==== Sys2Proof/Machine/HostInterface.lean ====
section
/-! DEFINITION. The host interface (R75, R76, R276 to R278): construction, image loading, run, and the read accessors.
Each is a transaction of the host, not an instruction: `step` calls none of them (log 12). The host also reads the
fields `status` and `pc` as they stand. -/

namespace Sys2Proof.Machine

/-- `new(MEM_SIZE, PAGE_OFFSET_BITS)`, with the behaviour selections among the parameters (R10, R276, R290). -/
def newSession (cfg : Config) : Host.Outcome State Fault Refusal :=
  if cfg.valid then .next (State.construct cfg) else .refused .badGeometry

/-- The byte writes of `load_image`, in input order from address `a`: the memory they leave and the fault of the first
byte that cannot be written (R75, D37). -/
def loadBytes (c : Config) : Memory → Nat → List Byte → Memory × Option FaultRecord
  | m, _, [] => (m, none)
  | m, a, b :: bs =>
    match memWrite c m a .byte .image (b.setWidth 32) with
    | .error f => (m, some f)
    | .ok m' => loadBytes c m' (a + 1) bs

/-- What `load_image` and `run` answer outside their precondition `status ∈ {Idle, Halted}` (R276; log 12). -/
def hostRefusal (s : State) : Option Refusal :=
  match s.status with
  | .idle | .halted => none
  | .running => some .runInProgress
  | .faulted f => some (.sessionFaulted f)

/-- `load_image(offset, bytes)` (R75, R276). -/
def loadImage (offset : Word) (bytes : List Byte) (s : State) : Host.Outcome State Fault Refusal :=
  match hostRefusal s with
  | some r => .refused r
  | none =>
    match loadBytes s.cfg s.mem offset.toNat bytes with
    | (m, none) => .next (s.setMem m)
    | (m, some f) => raise f (s.setMem m)

/-- The start of `run(start)`: `pc <- start; status <- Running` (R276, R291); the rest of the run is steps. -/
def startRun (start : Word) (s : State) : Host.Outcome State Fault Refusal :=
  match hostRefusal s with
  | some r => .refused r
  | none => .next ((s.setPc start).setStatus .running)

/-- Steps until the run ends, at most `fuel` of them: the state at its end, or none if it is still running then. The
fuel bounds the evaluation and is no state of the hardware (R277, R279; log 13). -/
def continueRun : Nat → State → Option State
  | 0, s => if s.status = .running then none else some s
  | fuel + 1, s =>
    if s.status = .running then
      match step s with
      | .next t => continueRun fuel t
      | .fault _ => none
      | .refused _ => none
    else some s

/-- `run(start)` for at most `fuel` steps (R276 to R278). -/
def run (fuel : Nat) (start : Word) (s : State) : Except Refusal (Option State) :=
  match startRun start s with
  | .next t => .ok (continueRun fuel t)
  | .refused r => .error r
  | .fault (.sessionFaulted f) => .error (.sessionFaulted f)

/-- `read_register(i)` (R33, R276, D40). -/
def readRegister (index : Nat) (s : State) : Except Refusal Word :=
  if h : index < 32 then .ok (s.reg ⟨index, h⟩) else .error (.noSuchRegister index)

/-- Page `p` of the memory: `page[p][0 .. PAGE_SIZE-1]` (R61, R62). -/
def pageBytes (s : State) (p : Nat) : List Byte :=
  (List.range s.cfg.pageSize).map fun o => s.mem.byte (p * s.cfg.pageSize + o)

/-- `memory_buffer()`: the whole page array, page 0 first, without any access (R76, D41). -/
def memoryBuffer (s : State) : List (List Byte) := (List.range s.cfg.numPages).map (pageBytes s)

end Sys2Proof.Machine
end

