-- ==== Sys2Proof/Safety.lean ====
section
/-! DEFINITION. The terms claims are stated in: what a step leaves unchanged, what an instruction accesses, the
invariant of a session, and a run without a fault. -/

namespace Sys2Proof.Machine

/-! ## Frames, said through reads -/

/-- Every general register reads as before. -/
def SameRegs (s t : State) : Prop := ∀ r, t.reg r = s.reg r

/-- Every byte of memory reads as before. -/
def SameMemory (s t : State) : Prop := ∀ a, t.mem.byte a = s.mem.byte a

/-- The parameters, the latched word and opcode and the run status are as before. -/
def SameShell (s t : State) : Prop :=
  t.cfg = s.cfg ∧ t.currentInstructionWord = s.currentInstructionWord ∧ t.currentOpcode = s.currentOpcode ∧
    t.status = s.status

/-- `rd` reads `v`, unless it is x0, which still reads 0; every other register reads as before (R32). -/
def OnlyReg (s t : State) (rd : RegIdx) (v : Word) : Prop :=
  ∀ r, t.reg r = if r = 0 then 0 else if r = rd then v else s.reg r

/-- The whole effect of a computational instruction: `rd` written (or nothing, for x0), the next pc, all else kept. -/
def WritesReg (s t : State) (rd : RegIdx) (v : Word) (pc : Word) : Prop :=
  t.pc = pc ∧ OnlyReg s t rd v ∧ SameMemory s t ∧ SameShell s t

/-- The whole effect of an instruction that only moves the pc. -/
def OnlyPc (s t : State) (pc : Word) : Prop := t.pc = pc ∧ SameRegs s t ∧ SameMemory s t ∧ SameShell s t

/-- The whole effect of a store of the `n` low bytes of `v` at address `a`: those bytes, little-endian, and the next
pc (R66, R157). -/
def StoresBytes (s t : State) (a n : Nat) (v : Word) : Prop :=
  t.pc = s.pc + 4 ∧ SameRegs s t ∧ SameShell s t ∧
    (∀ i, i < n → (t.mem.byte (a + i)).toNat = v.toNat / 256 ^ i % 256) ∧
    ∀ b, (b < a ∨ a + n ≤ b) → t.mem.byte b = s.mem.byte b

/-- Nothing changes but the run status: a halt (R244) or a raised fault (R260). -/
def OnlyStatus (s t : State) (st : Status) : Prop :=
  t.status = st ∧ t.pc = s.pc ∧ SameRegs s t ∧ SameMemory s t ∧ t.cfg = s.cfg ∧
    t.currentInstructionWord = s.currentInstructionWord ∧ t.currentOpcode = s.currentOpcode

/-- The number that the bytes `a .. a+n-1` hold, little-endian (R65, R68). -/
def littleEndianValue (m : Memory) (a : Nat) : Nat → Nat
  | 0 => 0
  | n + 1 => (m.byte a).toNat + 256 * littleEndianValue m (a + 1) n

/-! ## What an instruction accesses -/

/-- The one memory access of a load or a store: address, width, kind (R71, R150, R151, R263). -/
def memoryAccess (i : Instr) (s : State) : Option (Nat × Width × AccessKind) :=
  match i with
  | .lb _ rs1 imm => some (loadAddress s .byte rs1 imm, .byte, .load)
  | .lh _ rs1 imm => some (loadAddress s .half rs1 imm, .half, .load)
  | .lw _ rs1 imm => some (loadAddress s .word rs1 imm, .word, .load)
  | .lbu _ rs1 imm => some (loadAddress s .byte rs1 imm, .byte, .load)
  | .lhu _ rs1 imm => some (loadAddress s .half rs1 imm, .half, .load)
  | .sb _ rs1 imm => some (storeAddress s rs1 imm, .byte, .store)
  | .sh _ rs1 imm => some (storeAddress s rs1 imm, .half, .store)
  | .sw _ rs1 imm => some (storeAddress s rs1 imm, .word, .store)
  | .lui _ _ | .jal _ _ | .jalr _ _ _ => none
  | .beq _ _ _ | .bne _ _ _ | .blt _ _ _ | .bge _ _ _ | .bltu _ _ _ | .bgeu _ _ _ => none
  | .addi _ _ _ | .slti _ _ _ | .sltiu _ _ _ | .xori _ _ _ | .ori _ _ _ | .andi _ _ _ => none
  | .slli _ _ _ | .srli _ _ _ | .srai _ _ _ => none
  | .add _ _ _ | .sub _ _ _ | .sll _ _ _ | .slt _ _ _ | .sltu _ _ _ => none
  | .xor _ _ _ | .srl _ _ _ | .sra _ _ _ | .or _ _ _ | .and _ _ _ => none
  | .mul _ _ _ | .mulh _ _ _ | .mulhsu _ _ _ | .mulhu _ _ _ => none
  | .div _ _ _ | .divu _ _ _ | .rem _ _ _ | .remu _ _ _ => none
  | .ecall | .ebreak | .systemOther _ | .zeroHalt _ => none

/-- The fault of that access, if it faults (R63, R64). -/
def instrFault (i : Instr) (s : State) : Option FaultRecord :=
  match memoryAccess i s with
  | none => none
  | some (a, w, k) => accessFault s.cfg a w k

/-- The general registers an instruction may write (R34, R35). -/
def destinations (i : Instr) (s : State) : List RegIdx :=
  match i with
  | .lui rd _ | .jal rd _ | .jalr rd _ _ => [rd]
  | .lb rd _ _ | .lh rd _ _ | .lw rd _ _ | .lbu rd _ _ | .lhu rd _ _ => [rd]
  | .addi rd _ _ | .slti rd _ _ | .sltiu rd _ _ | .xori rd _ _ | .ori rd _ _ | .andi rd _ _ => [rd]
  | .slli rd _ _ | .srli rd _ _ | .srai rd _ _ => [rd]
  | .add rd _ _ | .sub rd _ _ | .sll rd _ _ | .slt rd _ _ | .sltu rd _ _ => [rd]
  | .xor rd _ _ | .srl rd _ _ | .sra rd _ _ | .or rd _ _ | .and rd _ _ => [rd]
  | .mul rd _ _ | .mulh rd _ _ | .mulhsu rd _ _ | .mulhu rd _ _ => [rd]
  | .div rd _ _ | .divu rd _ _ | .rem rd _ _ | .remu rd _ _ => [rd]
  | .beq _ _ _ | .bne _ _ _ | .blt _ _ _ | .bge _ _ _ | .bltu _ _ _ | .bgeu _ _ _ =>
    match s.cfg.branchLink with
    | .noLink => []
    | .linkX1 => [1]
  | .sb _ _ _ | .sh _ _ _ | .sw _ _ _ => []
  | .ecall | .ebreak | .systemOther _ | .zeroHalt _ => []

/-- The halting instructions (R240 to R243). -/
def halts : Instr → Bool
  | .ecall | .ebreak | .systemOther _ | .zeroHalt _ => true
  | .lui _ _ | .jal _ _ | .jalr _ _ _ => false
  | .beq _ _ _ | .bne _ _ _ | .blt _ _ _ | .bge _ _ _ | .bltu _ _ _ | .bgeu _ _ _ => false
  | .lb _ _ _ | .lh _ _ _ | .lw _ _ _ | .lbu _ _ _ | .lhu _ _ _ => false
  | .sb _ _ _ | .sh _ _ _ | .sw _ _ _ => false
  | .addi _ _ _ | .slti _ _ _ | .sltiu _ _ _ | .xori _ _ _ | .ori _ _ _ | .andi _ _ _ => false
  | .slli _ _ _ | .srli _ _ _ | .srai _ _ _ => false
  | .add _ _ _ | .sub _ _ _ | .sll _ _ _ | .slt _ _ _ | .sltu _ _ _ => false
  | .xor _ _ _ | .srl _ _ _ | .sra _ _ _ | .or _ _ _ | .and _ _ _ => false
  | .mul _ _ _ | .mulh _ _ _ | .mulhsu _ _ _ | .mulhu _ _ _ => false
  | .div _ _ _ | .divu _ _ _ | .rem _ _ _ | .remu _ _ _ => false

/-- The opcodes of the halting words (R121). -/
abbrev haltingWord (w : Word) : Prop := opcodeField w = 0x73#7 ∨ opcodeField w = 0x00#7

/-! ## The invariant of a session -/

/-- What the state still shows of a fault record: the record tells the truth about the state it ended (R261, R262,
R264). -/
def faultJustified (s : State) : FaultRecord → Prop
  | .illegalOpcode w op => w = s.currentInstructionWord ∧ decode w = .illegal (.illegalOpcode w op)
  | .illegalFunct3 w op f3 => w = s.currentInstructionWord ∧ decode w = .illegal (.illegalFunct3 w op f3)
  | .illegalShiftImm w f3 hi => w = s.currentInstructionWord ∧ decode w = .illegal (.illegalShiftImm w f3 hi)
  | .illegalRKey w key => w = s.currentInstructionWord ∧ decode w = .illegal (.illegalRKey w key)
  | .memOutOfRange a w k => accessJustified a w k ∧ accessFault s.cfg a w k = some (.memOutOfRange a w k)
  | .memCrossPage a w k => accessJustified a w k ∧ accessFault s.cfg a w k = some (.memCrossPage a w k)
where
  accessJustified (a : Nat) (w : Width) (k : AccessKind) : Prop :=
    match k with
    | .fetch => a = s.pc.toNat ∧ w = .word
    | .load | .store => ∃ i, decode s.currentInstructionWord = .instr i ∧ memoryAccess i s = some (a, w, k)
    | .image => w = .byte

/-- The run status is justified by the rest of the state. -/
def statusJustified (s : State) : Prop :=
  match s.status with
  | .faulted f => faultJustified s f
  | .halted => haltingWord s.currentInstructionWord
  | .idle | .running => True

/-- The invariant: a legal geometry (R9), a canonical memory that lists only backed addresses (R61, R73), x0's cell at
0 (R32, log 8), `current_opcode` the opcode of `current_instruction_word` (R41), and a justified status. -/
structure State.Inv (s : State) : Prop where
  geometry : s.cfg.valid
  canonical : s.mem.wf
  backed : ∀ c ∈ s.mem, c.1 < s.cfg.span
  x0 : s.regs[0] = 0
  latched : s.currentOpcode = (opcodeField s.currentInstructionWord).setWidth 8
  status : statusJustified s

/-- A session that has not ended in a fault. -/
def State.Safe (s : State) : Prop := ∀ f, s.status ≠ .faulted f

end Sys2Proof.Machine
end

