-- ==== Sys2Proof/Certificates/Slice0/Obligations.lean ====
section
/-! DEFINITION. The statements for the provers. The first part defines the shapes several statements share: what one row
of the opcode table claims, in the numbers and bits of the spec's own pseudocode (R12, R13), not in the model's
operations. -/

namespace Sys2Proof.Claims

open Sys2Proof.Machine

/-- The effective address of a load or store as a number: `(x[rs1] + imm)` modulo 2^32 (R150). -/
def effective (s : State) (rs1 : RegIdx) (imm : BitVec 12) : Nat :=
  (((s.reg rs1).toNat + imm.toInt) % 2 ^ 32).toNat

/-- The first page index of an access is beyond the last page (R63). -/
def OutOfRange (c : Config) (a : Nat) : Prop := c.numPages ≤ a / c.pageSize

/-- An access inside the range crosses the end of its page (R64). -/
def Crosses (c : Config) (a n : Nat) : Prop := ¬ OutOfRange c a ∧ c.pageSize < a % c.pageSize + n

/-- An access that passes both checks (R65, R66). -/
def Passes (c : Config) (a n : Nat) : Prop := ¬ OutOfRange c a ∧ a % c.pageSize + n ≤ c.pageSize

/-- A register-register row: its word decodes to it, and it completes on every state with the value `P` says, writing
`rd` (nothing, for x0), going to `pc + 4` and changing nothing else. -/
def RegisterRow (funct7 : BitVec 7) (funct3 : BitVec 3) (con : RegIdx → RegIdx → RegIdx → Instr)
    (P : Config → Word → Word → Word → Prop) : Prop :=
  ∀ (rd rs1 rs2 : RegIdx) (s : State),
    decode (encodeR funct7 rs2 rs1 funct3 rd 0x33#7) = .instr (con rd rs1 rs2) ∧
    ∃ t v, exec (con rd rs1 rs2) s = .next t ∧ P s.cfg (s.reg rs1) (s.reg rs2) v ∧ WritesReg s t rd v (s.pc + 4)

/-- A register-immediate row; `P` is given the sign-extended immediate as an integer (R108). -/
def ImmediateRow (funct3 : BitVec 3) (con : RegIdx → RegIdx → BitVec 12 → Instr)
    (P : Word → Int → Word → Prop) : Prop :=
  ∀ (rd rs1 : RegIdx) (imm : BitVec 12) (s : State),
    decode (encodeI imm rs1 funct3 rd 0x13#7) = .instr (con rd rs1 imm) ∧
    ∃ t v, exec (con rd rs1 imm) s = .next t ∧ P (s.reg rs1) imm.toInt v ∧ WritesReg s t rd v (s.pc + 4)

/-- A shift-immediate row; `P` is given the shift amount (R113). -/
def ShiftRow (funct7 : BitVec 7) (funct3 : BitVec 3) (con : RegIdx → RegIdx → BitVec 5 → Instr)
    (P : Config → Word → Nat → Word → Prop) : Prop :=
  ∀ (rd rs1 : RegIdx) (shamt : BitVec 5) (s : State),
    decode (encodeShift funct7 shamt rs1 funct3 rd 0x13#7) = .instr (con rd rs1 shamt) ∧
    ∃ t v, exec (con rd rs1 shamt) s = .next t ∧ P s.cfg (s.reg rs1) shamt.toNat v ∧ WritesReg s t rd v (s.pc + 4)

/-- A branch row: taken when `P` holds of the two registers, with the link write only under LinkX1 (R170). -/
def BranchRow (funct3 : BitVec 3) (con : RegIdx → RegIdx → BitVec 13 → Instr) (P : Word → Word → Prop) : Prop :=
  ∀ (rs1 rs2 : RegIdx) (offset : BitVec 13) (s : State),
    (offset.getLsbD 0 = false →
      decode (encodeB offset rs2 rs1 funct3 0x63#7) = .instr (con rs1 rs2 offset)) ∧
    (P (s.reg rs1) (s.reg rs2) → ∃ t target, exec (con rs1 rs2 offset) s = .next t ∧
      (BitVec.toNat target : Int) = (s.pc.toNat + offset.toInt) % 2 ^ 32 ∧
      (s.cfg.branchLink = .noLink → OnlyPc s t target) ∧
      (s.cfg.branchLink = .linkX1 → WritesReg s t 1 (s.pc + 4) target)) ∧
    (¬ P (s.reg rs1) (s.reg rs2) → ∃ t, exec (con rs1 rs2 offset) s = .next t ∧ OnlyPc s t (s.pc + 4))

/-- A load row: the address (with `bias` added under ObservedBias), the two faults, and otherwise the value `P` says of
the little-endian number read. -/
def LoadRow (funct3 : BitVec 3) (con : RegIdx → RegIdx → BitVec 12 → Instr) (w : Width) (bias : Nat)
    (P : Nat → Word → Prop) : Prop :=
  ∀ (rd rs1 : RegIdx) (imm : BitVec 12) (s : State) (a : Nat),
    a = effective s rs1 imm + (if s.cfg.subwordLoadMode = .observedBias then bias else 0) →
    decode (encodeI imm rs1 funct3 rd 0x03#7) = .instr (con rd rs1 imm) ∧
    (OutOfRange s.cfg a → ∃ t, exec (con rd rs1 imm) s = .next t ∧
      OnlyStatus s t (.faulted (.memOutOfRange a w .load))) ∧
    (Crosses s.cfg a w.bytes → ∃ t, exec (con rd rs1 imm) s = .next t ∧
      OnlyStatus s t (.faulted (.memCrossPage a w .load))) ∧
    (Passes s.cfg a w.bytes → ∃ t v, exec (con rd rs1 imm) s = .next t ∧
      P (littleEndianValue s.mem a w.bytes) v ∧ WritesReg s t rd v (s.pc + 4))

/-- A store row: the address, the two faults with no byte written, and otherwise the bytes stored. -/
def StoreRow (funct3 : BitVec 3) (con : RegIdx → RegIdx → BitVec 12 → Instr) (w : Width) : Prop :=
  ∀ (rs2 rs1 : RegIdx) (imm : BitVec 12) (s : State) (a : Nat), s.mem.wf → a = effective s rs1 imm →
    decode (encodeS imm rs2 rs1 funct3 0x23#7) = .instr (con rs2 rs1 imm) ∧
    (OutOfRange s.cfg a → ∃ t, exec (con rs2 rs1 imm) s = .next t ∧
      OnlyStatus s t (.faulted (.memOutOfRange a w .store))) ∧
    (Crosses s.cfg a w.bytes → ∃ t, exec (con rs2 rs1 imm) s = .next t ∧
      OnlyStatus s t (.faulted (.memCrossPage a w .store))) ∧
    (Passes s.cfg a w.bytes → ∃ t, exec (con rs2 rs1 imm) s = .next t ∧
      StoresBytes s t a w.bytes (s.reg rs2))

/-- Arithmetic right shift as the floor of a division, or rotation bit by bit (R13, R188, R208). -/
def ShiftedRight (c : Config) (a : Word) (k : Nat) (v : Word) : Prop :=
  match c.sraMode with
  | .arithmetic => v.toInt = a.toInt / 2 ^ k
  | .rotate => ∀ i, i < 32 → v.getLsbD i = a.getLsbD ((i + k) % 32)

/-- The pc an instruction leaves when it completes (R37), in the spec's terms. -/
def NextPc (i : Instr) (s : State) : Word :=
  match i with
  | .jal _ offset => s.pc + offset.signExtend 32
  | .jalr _ rs1 imm =>
    match s.cfg.jalrMode with
    | .pcRelative => s.pc + imm.signExtend 32 + s.reg rs1
    | .standard => (s.reg rs1 + imm.signExtend 32) &&& ~~~1#32
  | .beq rs1 rs2 offset => if s.reg rs1 = s.reg rs2 then s.pc + offset.signExtend 32 else s.pc + 4
  | .bne rs1 rs2 offset => if s.reg rs1 ≠ s.reg rs2 then s.pc + offset.signExtend 32 else s.pc + 4
  | .blt rs1 rs2 offset => if (s.reg rs1).toInt < (s.reg rs2).toInt then s.pc + offset.signExtend 32 else s.pc + 4
  | .bge rs1 rs2 offset => if (s.reg rs2).toInt ≤ (s.reg rs1).toInt then s.pc + offset.signExtend 32 else s.pc + 4
  | .bltu rs1 rs2 offset => if (s.reg rs1).toNat < (s.reg rs2).toNat then s.pc + offset.signExtend 32 else s.pc + 4
  | .bgeu rs1 rs2 offset => if (s.reg rs2).toNat ≤ (s.reg rs1).toNat then s.pc + offset.signExtend 32 else s.pc + 4
  | .ecall | .ebreak | .systemOther _ | .zeroHalt _ => s.pc
  | _ => s.pc + 4

/-- The ten opcodes of R114. -/
def namedOpcodes : List (BitVec 7) :=
  [0x37#7, 0x6F#7, 0x67#7, 0x63#7, 0x03#7, 0x23#7, 0x13#7, 0x33#7, 0x73#7, 0x00#7]

/-- The eighteen mapped composite keys of R119. -/
def mappedKeys : List (BitVec 10) :=
  [0x000#10, 0x001#10, 0x002#10, 0x003#10, 0x004#10, 0x005#10, 0x006#10, 0x007#10, 0x100#10, 0x105#10, 0x008#10,
    0x009#10, 0x00A#10, 0x00B#10, 0x00C#10, 0x00D#10, 0x00E#10, 0x00F#10]

/-- The instructions one after another, each by exec. -/
def execAll : List Instr → State → Host.Outcome State Fault Refusal
  | [], s => .next s
  | i :: is, s =>
    match exec i s with
    | .next t => execAll is t
    | .fault f => .fault f
    | .refused r => .refused r

end Sys2Proof.Claims

open Sys2Proof Sys2Proof.Machine Sys2Proof.Claims

/-! ## Encoding -/

/-- Decoding the word of any well-formed instruction gives the instruction back, every operand at every value
(R102 to R107, R114 to R121). -/
def Obligations.DecodeOfEncode : Prop := ∀ i : Instr, i.wellFormed = true → decode (encode i) = .instr i

/-- A word that decodes to an instruction is that instruction's word, and the instruction is well formed: no bit of a
word is dropped and no two words are the same instruction (R101, R125). -/
def Obligations.EncodeOfDecode : Prop :=
  ∀ (w : Word) (i : Instr), decode w = .instr i → i.wellFormed = true ∧ encode i = w

/-- Words written out from the spec's encodings (95_test_vectors.md): one of each family. -/
def Obligations.DecodesWrittenOutWords : Prop :=
  decode 0x123452B7#32 = .instr (.lui 5 0x12345) ∧ decode 0xF01FF06F#32 = .instr (.jal 0 (-0x100)) ∧
  decode 0xFFC300E7#32 = .instr (.jalr 1 6 (-4)) ∧ decode 0xFE629EE3#32 = .instr (.bne 5 6 (-4)) ∧
  decode 0x00235283#32 = .instr (.lhu 5 6 2) ∧ decode 0xFE532C23#32 = .instr (.sw 5 6 (-8)) ∧
  decode 0x80036293#32 = .instr (.ori 5 6 (-2048)) ∧ decode 0x41F35293#32 = .instr (.srai 5 6 31) ∧
  decode 0x407302B3#32 = .instr (.sub 5 6 7) ∧ decode 0x027322B3#32 = .instr (.mulhsu 5 6 7) ∧
  decode 0x00100073#32 = .instr .ebreak ∧ decode 0x300292F3#32 = .instr (.systemOther 0x600525) ∧
  decode 0x00000080#32 = .instr (.zeroHalt 1)

/-- R122: an opcode not named in R114, and only that, is IllegalOpcode, with the word and its opcode. -/
def Obligations.UnnamedOpcodeIsIllegal : Prop :=
  ∀ w : Word,
    (opcodeField w ∉ namedOpcodes ↔ decode w = .illegal (.illegalOpcode w (w.extractLsb' 0 7))) ∧
    ∀ v op, decode w = .illegal (.illegalOpcode v op) → v = w ∧ op = w.extractLsb' 0 7

/-- R115 to R120: the unmapped function fields of each category, and only those, are the three other decode faults,
each recording the word and the fields R124 names. -/
def Obligations.UnmappedFunctionFieldsAreIllegal : Prop :=
  ∀ w : Word,
    (decode w = .illegal (.illegalFunct3 w (w.extractLsb' 0 7) (w.extractLsb' 12 3)) ↔
      (opcodeField w = 0x03#7 ∧ funct3Field w ∈ [3#3, 6#3, 7#3]) ∨
      (opcodeField w = 0x23#7 ∧ funct3Field w ∈ [3#3, 4#3, 5#3, 6#3, 7#3]) ∨
      (opcodeField w = 0x63#7 ∧ funct3Field w ∈ [2#3, 3#3]) ∨
      (opcodeField w = 0x67#7 ∧ funct3Field w ≠ 0#3)) ∧
    (decode w = .illegal (.illegalShiftImm w (w.extractLsb' 12 3) (w.extractLsb' 25 7)) ↔
      opcodeField w = 0x13#7 ∧
        ((funct3Field w = 1#3 ∧ funct7Field w ≠ 0#7) ∨
         (funct3Field w = 5#3 ∧ funct7Field w ≠ 0#7 ∧ funct7Field w ≠ 0x20#7))) ∧
    (decode w = .illegal (.illegalRKey w (w.extractLsb' 25 7 ++ w.extractLsb' 12 3)) ↔
      opcodeField w = 0x33#7 ∧ keyField w ∉ mappedKeys) ∧
    ∀ f, decode w = .illegal f →
      f = .illegalOpcode w (w.extractLsb' 0 7) ∨
      f = .illegalFunct3 w (w.extractLsb' 0 7) (w.extractLsb' 12 3) ∨
      f = .illegalShiftImm w (w.extractLsb' 12 3) (w.extractLsb' 25 7) ∨
      f = .illegalRKey w (w.extractLsb' 25 7 ++ w.extractLsb' 12 3)

/-- R110 to R112: the values of the branch, upper and jump immediates from the bits of the word, their parity and
range. -/
def Obligations.ScrambledImmediateValues : Prop :=
  ∀ w : Word,
    ((branchOffset (immBField w)).toInt =
        -4096 * (w.extractLsb' 31 1).toNat + 2048 * (w.extractLsb' 7 1).toNat + 32 * (w.extractLsb' 25 6).toNat +
          2 * (w.extractLsb' 8 4).toNat ∧
      (branchOffset (immBField w)).toInt % 2 = 0 ∧
      -4096 ≤ (branchOffset (immBField w)).toInt ∧ (branchOffset (immBField w)).toInt ≤ 4094) ∧
    (imm20Word (immUField w)).toNat = 4096 * (w.extractLsb' 12 20).toNat ∧
    ((jumpOffset (immJField w)).toInt =
        -1048576 * (w.extractLsb' 31 1).toNat + 4096 * (w.extractLsb' 12 8).toNat +
          2048 * (w.extractLsb' 20 1).toNat + 2 * (w.extractLsb' 21 10).toNat ∧
      (jumpOffset (immJField w)).toInt % 2 = 0 ∧
      -1048576 ≤ (jumpOffset (immJField w)).toInt ∧ (jumpOffset (immJField w)).toInt ≤ 1048574)

/-- R108, R109: the I and S immediates are sign-extended from the bits of the word (the spec's choice D8, D9). -/
def Obligations.SignedTwelveBitImmediates : Prop :=
  ∀ w : Word,
    (imm12Word (immIField w)).toInt =
      -2048 * (w.extractLsb' 31 1).toNat + (w.extractLsb' 20 11).toNat ∧
    (imm12Word (immSField w)).toInt =
      -2048 * (w.extractLsb' 31 1).toNat + 32 * (w.extractLsb' 25 6).toNat + (w.extractLsb' 7 5).toNat

/-! ## Memory -/

/-- R62: an address splits uniquely into page index and page offset, the byte it names is `page[index][offset]` of the
page array, and every page can be read, written and executed alike. -/
def Obligations.AddressSplitIsUnique : Prop :=
  ∀ (s : State) (a : Nat),
    a = s.cfg.pageIndex a * s.cfg.pageSize + s.cfg.pageOffset a ∧ s.cfg.pageOffset a < s.cfg.pageSize ∧
    (∀ p o, o < s.cfg.pageSize → a = p * s.cfg.pageSize + o → p = s.cfg.pageIndex a ∧ o = s.cfg.pageOffset a) ∧
    (a < s.cfg.span → ((memoryBuffer s)[s.cfg.pageIndex a]?.bind fun page => page[s.cfg.pageOffset a]?) =
      some (s.mem.byte a)) ∧
    ∀ w k k', accessFault s.cfg a w k = none → accessFault s.cfg a w k' = none

/-- R63, R73: an access whose page index is not below NUM_PAGES, that is at or above the span, fails as out of range,
whatever its width and kind; an access below the span never does. -/
def Obligations.UnbackedAccessIsOutOfRange : Prop :=
  ∀ (c : Config) (m : Memory) (a : Nat) (w : Width) (k : AccessKind) (v : Word),
    (c.numPages ≤ c.pageIndex a ↔ c.span ≤ a) ∧
    (c.span ≤ a → memRead c m a w k = .error (.memOutOfRange a w k) ∧
      memWrite c m a w k v = .error (.memOutOfRange a w k)) ∧
    (a < c.span → memRead c m a w k ≠ .error (.memOutOfRange a w k) ∧
      memWrite c m a w k v ≠ .error (.memOutOfRange a w k))

/-- R65: MemRead raises by its two checks, and otherwise returns the bytes of the page, little-endian, zero-extended.
That a crossing access raises MemCrossPage (R64) is the spec's choice D22, the order of the checks (R67) its D23 (log 11). -/
def Obligations.ReadReturnsPageBytes : Prop :=
  ∀ (c : Config) (m : Memory) (a : Nat) (w : Width) (k : AccessKind),
    (OutOfRange c a → memRead c m a w k = .error (.memOutOfRange a w k)) ∧
    (Crosses c a w.bytes → memRead c m a w k = .error (.memCrossPage a w k)) ∧
    (Passes c a w.bytes → ∃ v, memRead c m a w k = .ok v ∧
      (∀ i, i < w.bytes →
        v.toNat / 256 ^ i % 256 = (m.byte (c.pageIndex a * c.pageSize + (c.pageOffset a + i))).toNat) ∧
      v.toNat < 256 ^ w.bytes)

/-- R66: MemWrite raises by its two checks, and otherwise sets exactly the bytes `page[p][o+i]`, keeping every other
byte of every page and the canonical form of the model's memory. That a crossing access raises MemCrossPage (R64) is the
spec's choice D22, the order of the checks (R67) its D23 (log 11). -/
def Obligations.WriteSetsPageBytes : Prop :=
  ∀ (c : Config) (m : Memory) (a : Nat) (w : Width) (k : AccessKind) (v : Word), m.wf →
    (OutOfRange c a → memWrite c m a w k v = .error (.memOutOfRange a w k)) ∧
    (Crosses c a w.bytes → memWrite c m a w k v = .error (.memCrossPage a w k)) ∧
    (Passes c a w.bytes → ∃ m', memWrite c m a w k v = .ok m' ∧ m'.wf ∧
      ∀ p o, o < c.pageSize → (m'.byte (p * c.pageSize + o)).toNat =
        if p = c.pageIndex a ∧ c.pageOffset a ≤ o ∧ o < c.pageOffset a + w.bytes
        then v.toNat / 256 ^ (o - c.pageOffset a) % 256
        else (m.byte (p * c.pageSize + o)).toNat)

/-- R68: little-endian for every read, every write and the fetch, under every parameter. -/
def Obligations.LittleEndianAtEveryWidth : Prop :=
  (∀ c m a w k v, memRead c m a w k = .ok v → v.toNat = littleEndianValue m a w.bytes) ∧
  (∀ c (m : Memory) a w k v m', m.wf → memWrite c m a w k v = .ok m' →
    littleEndianValue m' a w.bytes = v.toNat % 256 ^ w.bytes) ∧
  (∀ s w, fetch s = .ok w → w.toNat = littleEndianValue s.mem s.pc.toNat 4)

/-- R69: bytes, half-words and the word read back after a word was written at the same address. -/
def Obligations.MixedWidthReadsSeeOneArray : Prop :=
  ∀ (c : Config) (m m' : Memory) (a : Nat) (v : Word), m.wf → memWrite c m a .word .store v = .ok m' →
    (∀ i, i < 4 → memRead c m' (a + i) .byte .load = .ok ((v.extractLsb' (8 * i) 8).setWidth 32)) ∧
    memRead c m' a .half .load = .ok ((v.extractLsb' 0 16).setWidth 32) ∧
    memRead c m' (a + 2) .half .load = .ok ((v.extractLsb' 16 16).setWidth 32) ∧
    memRead c m' a .word .load = .ok v

/-! ## Upper immediate and jumps -/

/-- R140. -/
def Obligations.LuiResult : Prop :=
  ∀ (rd : RegIdx) (imm20 : BitVec 20) (s : State),
    decode (encodeU imm20 rd 0x37#7) = .instr (.lui rd imm20) ∧
    ∃ t v, exec (.lui rd imm20) s = .next t ∧ BitVec.toNat v = imm20.toNat * 2 ^ 12 ∧ WritesReg s t rd v (s.pc + 4)

/-- R141. That both sums wrap modulo 2^32 (R38) is the spec's choice D6, that no alignment of the target is checked (R39)
its D21 (log 11). -/
def Obligations.JalResult : Prop :=
  ∀ (rd : RegIdx) (offset : BitVec 21) (s : State),
    (offset.getLsbD 0 = false → decode (encodeJ offset rd 0x6F#7) = .instr (.jal rd offset)) ∧
    ∃ t v target, exec (.jal rd offset) s = .next t ∧ BitVec.toNat v = (s.pc.toNat + 4) % 2 ^ 32 ∧
      (BitVec.toNat target : Int) = (s.pc.toNat + offset.toInt) % 2 ^ 32 ∧ WritesReg s t rd v target

/-- R142, in both modes, the target from the old register (the spec's choice D10, D5, the extension D9, the wrap D6). -/
def Obligations.JalrResult : Prop :=
  ∀ (rd rs1 : RegIdx) (imm : BitVec 12) (s : State),
    decode (encodeI imm rs1 0#3 rd 0x67#7) = .instr (.jalr rd rs1 imm) ∧
    ∃ t v target, exec (.jalr rd rs1 imm) s = .next t ∧ BitVec.toNat v = (s.pc.toNat + 4) % 2 ^ 32 ∧
      (s.cfg.jalrMode = .pcRelative →
        (BitVec.toNat target : Int) = (s.pc.toNat + imm.toInt + (s.reg rs1).toNat) % 2 ^ 32) ∧
      (s.cfg.jalrMode = .standard →
        (BitVec.toNat target : Int) = ((s.reg rs1).toNat + imm.toInt) % 2 ^ 32 / 2 * 2) ∧
      WritesReg s t rd v target

/-! ## Branches -/

/-- R171 to R176, with R170's taken and not-taken effects (the link parameter is the spec's choice D14). -/
def Obligations.BranchResults : Prop :=
  BranchRow 0#3 .beq (fun a b => a = b) ∧
  BranchRow 1#3 .bne (fun a b => a ≠ b) ∧
  BranchRow 4#3 .blt (fun a b => a.toInt < b.toInt) ∧
  BranchRow 5#3 .bge (fun a b => b.toInt ≤ a.toInt) ∧
  BranchRow 6#3 .bltu (fun a b => a.toNat < b.toNat) ∧
  BranchRow 7#3 .bgeu (fun a b => b.toNat ≤ a.toNat)

/-! ## Loads and stores -/

/-- R154: LW, the same in both sub-word modes. -/
def Obligations.LoadWordResult : Prop := LoadRow 2#3 .lw .word 0 fun x v => v.toNat = x

/-- R151 to R153, R155, R156: the sub-word loads in both modes (the spec's choice D15, D16; the address at the top of
the address space as log 6 says). -/
def Obligations.SubwordLoadResults : Prop :=
  (LoadRow 0#3 .lb .byte 3 fun x v => v.toInt = if x < 128 then (x : Int) else x - 256) ∧
  (LoadRow 1#3 .lh .half 2 fun x v => v.toInt = if x < 32768 then (x : Int) else x - 65536) ∧
  (LoadRow 4#3 .lbu .byte 3 fun x v => v.toNat = x) ∧
  (LoadRow 5#3 .lhu .half 2 fun x v => v.toNat = x)

/-- R160: SW. -/
def Obligations.StoreWordResult : Prop := StoreRow 2#3 .sw .word

/-- R158, R159: SB and SH (the spec's choice D17). -/
def Obligations.SubwordStoreResults : Prop := StoreRow 0#3 .sb .byte ∧ StoreRow 1#3 .sh .half

/-- R161: after a store of a word that does not fault, the five loads at the same base and displacement, in both
sub-word modes. -/
def Obligations.StoreThenLoadRoundTrip : Prop :=
  ∀ (rs2 rs1 rd : RegIdx) (imm : BitVec 12) (s : State) (v : Word), s.mem.wf → rd ≠ 0 → v = s.reg rs2 →
    Passes s.cfg (effective s rs1 imm) 4 →
    ∃ t, exec (.sw rs2 rs1 imm) s = .next t ∧
      (∃ u, exec (.lw rd rs1 imm) t = .next u ∧ u.reg rd = v) ∧
      (∃ u, exec (.lhu rd rs1 imm) t = .next u ∧ u.reg rd =
        if s.cfg.subwordLoadMode = .standard then (v.extractLsb' 0 16).setWidth 32
        else (v.extractLsb' 16 16).setWidth 32) ∧
      (∃ u, exec (.lh rd rs1 imm) t = .next u ∧ u.reg rd =
        if s.cfg.subwordLoadMode = .standard then (v.extractLsb' 0 16).signExtend 32
        else (v.extractLsb' 16 16).signExtend 32) ∧
      (∃ u, exec (.lbu rd rs1 imm) t = .next u ∧ u.reg rd =
        if s.cfg.subwordLoadMode = .standard then (v.extractLsb' 0 8).setWidth 32
        else (v.extractLsb' 24 8).setWidth 32) ∧
      (∃ u, exec (.lb rd rs1 imm) t = .next u ∧ u.reg rd =
        if s.cfg.subwordLoadMode = .standard then (v.extractLsb' 0 8).signExtend 32
        else (v.extractLsb' 24 8).signExtend 32)

/-! ## Immediate ALU -/

/-- R181, R182: SLTI and SLTIU, the immediate sign-extended and then compared signed or unsigned. -/
def Obligations.SetLessThanImmediateResults : Prop :=
  ImmediateRow 2#3 .slti (fun a i v => v.toNat = if a.toInt < i then 1 else 0) ∧
  ImmediateRow 3#3 .sltiu (fun a i v => v.toNat = if (a.toNat : Int) < i % 2 ^ 32 then 1 else 0)

/-- R180, R183 to R185: ADDI, XORI, ORI, ANDI (the spec's choice D7, D8): the sum modulo 2^32, and bit by bit with the
immediate's bit 11 above bit 11. -/
def Obligations.ImmediateArithmeticAndLogicResults : Prop :=
  ImmediateRow 0#3 .addi (fun a i v => (v.toNat : Int) = (a.toNat + i) % 2 ^ 32) ∧
  (∀ (rd rs1 : RegIdx) (imm : BitVec 12) (s : State),
    (decode (encodeI imm rs1 4#3 rd 0x13#7) = .instr (.xori rd rs1 imm) ∧
      ∃ t v, exec (.xori rd rs1 imm) s = .next t ∧
        (∀ k, k < 32 → BitVec.getLsbD v k = ((s.reg rs1).getLsbD k ^^ imm.getLsbD (min k 11))) ∧
        WritesReg s t rd v (s.pc + 4)) ∧
    (decode (encodeI imm rs1 6#3 rd 0x13#7) = .instr (.ori rd rs1 imm) ∧
      ∃ t v, exec (.ori rd rs1 imm) s = .next t ∧
        (∀ k, k < 32 → BitVec.getLsbD v k = ((s.reg rs1).getLsbD k || imm.getLsbD (min k 11))) ∧
        WritesReg s t rd v (s.pc + 4)) ∧
    (decode (encodeI imm rs1 7#3 rd 0x13#7) = .instr (.andi rd rs1 imm) ∧
      ∃ t v, exec (.andi rd rs1 imm) s = .next t ∧
        (∀ k, k < 32 → BitVec.getLsbD v k = ((s.reg rs1).getLsbD k && imm.getLsbD (min k 11))) ∧
        WritesReg s t rd v (s.pc + 4)))

/-- R187: SRLI. -/
def Obligations.ShiftRightLogicalImmediateResult : Prop :=
  ShiftRow 0#7 5#3 .srli fun _ a k v => v.toNat = a.toNat / 2 ^ k

/-- R186, R188: SLLI, and SRAI in both modes (the spec's choice D12, D13). -/
def Obligations.ShiftLeftAndArithmeticImmediateResults : Prop :=
  (ShiftRow 0#7 1#3 .slli fun _ a k v => v.toNat = a.toNat * 2 ^ k % 2 ^ 32) ∧
  ShiftRow 0x20#7 5#3 .srai ShiftedRight

/-! ## Register ALU -/

/-- R202, R204, R205: SUB, SLT, SLTU. -/
def Obligations.SubtractAndCompareResults : Prop :=
  RegisterRow 0x20#7 0#3 .sub (fun _ a b v => (v.toNat : Int) = ((a.toNat : Int) - b.toNat) % 2 ^ 32) ∧
  RegisterRow 0#7 2#3 .slt (fun _ a b v => v.toNat = if a.toInt < b.toInt then 1 else 0) ∧
  RegisterRow 0#7 3#3 .sltu (fun _ a b v => v.toNat = if a.toNat < b.toNat then 1 else 0)

/-- R203, R207: SLL and SRL, the amount masked to 5 bits. -/
def Obligations.RegisterShiftResults : Prop :=
  RegisterRow 0#7 1#3 .sll (fun _ a b v => v.toNat = a.toNat * 2 ^ (b.toNat % 32) % 2 ^ 32) ∧
  RegisterRow 0#7 5#3 .srl (fun _ a b v => v.toNat = a.toNat / 2 ^ (b.toNat % 32))

/-- R206, R209, R210: XOR, OR, AND, bit by bit. -/
def Obligations.RegisterLogicResults : Prop :=
  RegisterRow 0#7 4#3 .xor (fun _ a b v => ∀ k, v.getLsbD k = (a.getLsbD k ^^ b.getLsbD k)) ∧
  RegisterRow 0#7 6#3 .or (fun _ a b v => ∀ k, v.getLsbD k = (a.getLsbD k || b.getLsbD k)) ∧
  RegisterRow 0#7 7#3 .and (fun _ a b v => ∀ k, v.getLsbD k = (a.getLsbD k && b.getLsbD k))

/-- R201, R208: ADD, and SRA in both modes (the spec's choice D7, D13). -/
def Obligations.AddAndShiftArithmeticResults : Prop :=
  RegisterRow 0#7 0#3 .add (fun _ a b v => v.toNat = (a.toNat + b.toNat) % 2 ^ 32) ∧
  RegisterRow 0x20#7 5#3 .sra (fun c a b v => ShiftedRight c a (b.toNat % 32) v)

/-! ## Multiply and divide -/

/-- R220, R221, R223: MUL, MULH, MULHU. -/
def Obligations.MultiplyResults : Prop :=
  RegisterRow 1#7 0#3 .mul (fun _ a b v => v.toNat = a.toNat * b.toNat % 2 ^ 32) ∧
  RegisterRow 1#7 1#3 .mulh (fun _ a b v => v.toInt = a.toInt * b.toInt / 2 ^ 32) ∧
  RegisterRow 1#7 3#3 .mulhu (fun _ a b v => v.toNat = a.toNat * b.toNat / 2 ^ 32)

/-- R225, R227: DIVU and REMU, by zero included. -/
def Obligations.UnsignedDivisionResults : Prop :=
  RegisterRow 1#7 5#3 .divu (fun _ a b v => v.toNat = if b.toNat = 0 then 2 ^ 32 - 1 else a.toNat / b.toNat) ∧
  RegisterRow 1#7 7#3 .remu (fun _ a b v => v.toNat = if b.toNat = 0 then a.toNat else a.toNat % b.toNat)

/-- R222, R224, R226: MULHSU, rs1 signed and rs2 unsigned (GK3); DIV and REM, by zero and in the overflow case
included (rounding and sign are GK2). -/
def Obligations.MixedMultiplyAndSignedDivisionResults : Prop :=
  RegisterRow 1#7 2#3 .mulhsu (fun _ a b v => v.toInt = a.toInt * b.toNat / 2 ^ 32) ∧
  RegisterRow 1#7 4#3 .div (fun _ a b v =>
    if b.toInt = 0 then v = 0xFFFFFFFF#32
    else if a.toInt = -2 ^ 31 ∧ b.toInt = -1 then v = a
    else v.toInt = a.toInt.tdiv b.toInt) ∧
  RegisterRow 1#7 6#3 .rem (fun _ a b v =>
    if b.toInt = 0 then v = a
    else if a.toInt = -2 ^ 31 ∧ b.toInt = -1 then v = 0
    else v.toInt = a.toInt.tmod b.toInt)

/-- R228: dividend = quotient × divisor + remainder modulo 2^32 for every pair of operands, signed and unsigned, and the
remainder is smaller than a nonzero divisor outside the overflow case. -/
def Obligations.DivisionLaw : Prop :=
  ∀ (rd rs1 rs2 : RegIdx) (s q r qu ru : State), rd ≠ 0 →
    exec (.div rd rs1 rs2) s = .next q → exec (.rem rd rs1 rs2) s = .next r →
    exec (.divu rd rs1 rs2) s = .next qu → exec (.remu rd rs1 rs2) s = .next ru →
    s.reg rs1 = q.reg rd * s.reg rs2 + r.reg rd ∧
    s.reg rs1 = qu.reg rd * s.reg rs2 + ru.reg rd ∧
    (s.reg rs2 ≠ 0 → (r.reg rd).toInt.natAbs < (s.reg rs2).toInt.natAbs ∧
      (ru.reg rd).toNat < (s.reg rs2).toNat)

/-! ## Halting words -/

/-- R240 to R244: every word of the SYSTEM opcode and of the zero opcode decodes to its row's halting instruction, and
that instruction completes on every state: the status becomes Halted and nothing else changes, the pc included (the
spec's choice D19). -/
def Obligations.HaltingWords : Prop :=
  decode 0x00000073#32 = .instr .ecall ∧ decode 0x00100073#32 = .instr .ebreak ∧
  (∀ w : Word, w.extractLsb' 0 7 = 0x73#7 → w ≠ 0x00000073#32 → w ≠ 0x00100073#32 →
    decode w = .instr (.systemOther (w.extractLsb' 7 25))) ∧
  (∀ w : Word, w.extractLsb' 0 7 = 0x00#7 → decode w = .instr (.zeroHalt (w.extractLsb' 7 25))) ∧
  ∀ (s : State) (upper : BitVec 25),
    (∃ t, exec .ecall s = .next t ∧ OnlyStatus s t .halted) ∧
    (∃ t, exec .ebreak s = .next t ∧ OnlyStatus s t .halted) ∧
    (∃ t, exec (.systemOther upper) s = .next t ∧ OnlyStatus s t .halted) ∧
    (∃ t, exec (.zeroHalt upper) s = .next t ∧ OnlyStatus s t .halted)

/-! ## The cycle -/

/-- R46: a step of a running core. A fetch that fails raises its fault with both latched fields unchanged; a word that
does not decode raises its fault with them latched; and when the bytes at pc decode to an instruction, the step is
exec of it on the latched state. -/
def Obligations.StepRunsDecodedInstruction : Prop :=
  ∀ s : State, s.status = .running →
    (∀ f, memRead s.cfg s.mem s.pc.toNat .word .fetch = .error f →
      ∃ t, step s = .next t ∧ OnlyStatus s t (.faulted f)) ∧
    ∀ w, memRead s.cfg s.mem s.pc.toNat .word .fetch = .ok w →
      ∃ l : State, l.currentInstructionWord = w ∧ l.currentOpcode = (w.extractLsb' 0 7).setWidth 8 ∧
        l.pc = s.pc ∧ l.regs = s.regs ∧ l.mem = s.mem ∧ l.cfg = s.cfg ∧ l.status = .running ∧
        (∀ f, decode w = .illegal f → ∃ t, step s = .next t ∧ OnlyStatus l t (.faulted f)) ∧
        (∀ i, decode w = .instr i → step s = exec i l)

/-- R37: the next pc of every instruction, whatever the state: the target, the next word, or the old pc for a halting
word and for a load or store that faults. -/
def Obligations.NextPcOfEveryInstruction : Prop :=
  ∀ (i : Instr) (s : State), ∃ t, exec i s = .next t ∧
    (instrFault i s = none → t.pc = NextPc i s) ∧ (instrFault i s ≠ none → t.pc = s.pc)

/-- R48: what a step of a running core can leave: still running, halted exactly when the fetched word is a halting word,
or faulted exactly when the fetch, the decode or the instruction's access fails. -/
def Obligations.RunEndsOnlyByHaltOrFault : Prop :=
  ∀ s : State, s.status = .running → ∃ t, step s = .next t ∧
    (t.status = .running ∨ t.status = .halted ∨ ∃ f, t.status = .faulted f) ∧
    (t.status = .halted ↔ ∃ w, fetch s = .ok w ∧ haltingWord w) ∧
    ∀ f, t.status = .faulted f ↔
      fetch s = .error f ∨
      (∃ w, fetch s = .ok w ∧ decode w = .illegal f) ∨
      ∃ w i, fetch s = .ok w ∧ decode w = .instr i ∧ instrFault i s = some f

/-- R260, R264: a fault is precise. The registers, the memory, the pc and the parameters are those before the step, and
the latched fields are unchanged (a fetch fault) or those of the faulting word (any other). -/
def Obligations.FaultsArePrecise : Prop :=
  ∀ (s t : State) (f : FaultRecord), s.status = .running → step s = .next t → t.status = .faulted f →
    t.pc = s.pc ∧ t.regs = s.regs ∧ t.mem = s.mem ∧ t.cfg = s.cfg ∧
    ((fetch s = .error f ∧ t.currentInstructionWord = s.currentInstructionWord ∧ t.currentOpcode = s.currentOpcode) ∨
      ∃ w, fetch s = .ok w ∧ t.currentInstructionWord = w ∧ t.currentOpcode = (w.extractLsb' 0 7).setWidth 8)

/-- R263: an instruction raises only the faults its row allows, and every other instruction raises none. -/
def Obligations.FaultKindsByInstruction : Prop :=
  ∀ (i : Instr) (s t : State) (f : FaultRecord), s.status = .running → exec i s = .next t → t.status = .faulted f →
    match i with
    | .lb _ _ _ | .lbu _ _ _ => ∃ a, f = .memOutOfRange a .byte .load
    | .sb _ _ _ => ∃ a, f = .memOutOfRange a .byte .store
    | .lh _ _ _ | .lhu _ _ _ => ∃ a, f = .memOutOfRange a .half .load ∨ f = .memCrossPage a .half .load
    | .lw _ _ _ => ∃ a, f = .memOutOfRange a .word .load ∨ f = .memCrossPage a .word .load
    | .sh _ _ _ => ∃ a, f = .memOutOfRange a .half .store ∨ f = .memCrossPage a .half .store
    | .sw _ _ _ => ∃ a, f = .memOutOfRange a .word .store ∨ f = .memCrossPage a .word .store
    | _ => False

/-- R34, R35: a step changes no register but a destination of the instruction it runs, never x0, and at most one. -/
def Obligations.OnlyDestinationsChange : Prop :=
  ∀ (s t : State), step s = .next t → t.reg 0 = 0 ∧ ∀ r, t.reg r ≠ s.reg r →
    r ≠ 0 ∧ s.status = .running ∧
      ∃ w i, fetch s = .ok w ∧ decode w = .instr i ∧ instrFault i s = none ∧ destinations i s = [r]

/-- R66, R72, R77: a step changes no byte of memory but those that the store it runs stores, all of them backed. -/
def Obligations.OnlyStoresChangeMemory : Prop :=
  ∀ (s t : State), s.mem.wf → step s = .next t → ∀ b, t.mem.byte b ≠ s.mem.byte b →
    s.status = .running ∧ ∃ w i a wd, fetch s = .ok w ∧ decode w = .instr i ∧
      memoryAccess i s = some (a, wd, .store) ∧ a ≤ b ∧ b < a + wd.bytes ∧ b < s.cfg.span

/-- R123: an instruction whose destination is x0 and whose access does not fault changes nothing but the pc. -/
def Obligations.DiscardedDestinationChangesOnlyPc : Prop :=
  ∀ (i : Instr) (s : State), destinations i s = [0] → instrFault i s = none →
    ∃ t, exec i s = .next t ∧ OnlyPc s t (NextPc i s)

/-- R40: no step reads the latched word or opcode of an earlier step. -/
def Obligations.LatchedWordCarriesNoState : Prop :=
  ∀ (s : State) (w w' : Word) (op : BitVec 8), s.status = .running → fetch s = .ok w →
    step { s with currentInstructionWord := w', currentOpcode := op } = step s

/-- R80, R296: a word stored at the address of the next instruction is what the next step runs. -/
def Obligations.StoreIsSeenByNextFetch : Prop :=
  ∀ (s : State) (w : Word) (rs2 rs1 : RegIdx) (imm : BitVec 12) (i : Instr), s.mem.wf → s.status = .running →
    fetch s = .ok w → decode w = .instr (.sw rs2 rs1 imm) → effective s rs1 imm = (s.pc + 4).toNat →
    Passes s.cfg (effective s rs1 imm) 4 → decode (s.reg rs2) = .instr i →
    ∃ t l, step s = .next t ∧ fetch t = .ok (s.reg rs2) ∧ step t = exec i l ∧ l.pc = s.pc + 4 ∧
      SameRegs s l ∧ l.mem = t.mem

/-- R279: a jump to itself (0x0000006F) and a branch to itself (0x00000063) keep the core running forever: after any number
of steps it is still Running, at the same pc, no step having stopped; so no bound on a run reaches its end. -/
def Obligations.JumpToItselfNeverEnds : Prop :=
  ∀ (s : State) (n : Nat), s.status = .running →
    (fetch s = .ok 0x0000006F#32 ∨ fetch s = .ok 0x00000063#32) →
      (∃ t : State, Host.Core.run Sys2Proof.core n s = .next t ∧ t.status = .running ∧ t.pc = s.pc) ∧
      continueRun n s = none

/-- R74, R243: a running core whose memory was never written halts at its pc, wherever a word can be fetched there. -/
def Obligations.NeverWrittenMemoryHalts : Prop :=
  ∀ s : State, s.status = .running → s.mem = [] → Passes s.cfg s.pc.toNat 4 →
    ∃ t, step s = .next t ∧ t.status = .halted ∧ t.pc = s.pc ∧ t.regs = s.regs ∧ t.mem = [] ∧
      t.currentInstructionWord = 0

/-! ## Reset, the host interface and the invariant -/

/-- R290: what construction leaves, for every parameters, and that the reset state is a construction. The zeros of the
pc, the shell fields and the memory are the spec's choice D28, the geometry of the reset state the model's (log 1). -/
def Obligations.ConstructionState : Prop :=
  (∀ cfg : Config, ∀ s, s = State.construct cfg →
    s.cfg = cfg ∧ (∀ r, s.reg r = 0) ∧ s.pc = 0 ∧ s.currentInstructionWord = 0 ∧ s.currentOpcode = 0 ∧
    s.status = .idle ∧ ∀ a, s.mem.byte a = 0) ∧
  State.reset = State.construct resetConfig ∧ resetConfig.sraMode = .arithmetic ∧ resetConfig.branchLink = .noLink ∧
  resetConfig.subwordLoadMode = .standard ∧ resetConfig.jalrMode = .pcRelative

/-- R9, R276: `new` constructs a session that meets the invariant for a legal geometry and refuses any other. -/
def Obligations.NewSessionMeetsInvariant : Prop :=
  (∀ cfg : Config, cfg.valid → newSession cfg = .next (State.construct cfg) ∧ (State.construct cfg).Inv) ∧
  ∀ cfg : Config, ¬ cfg.valid → newSession cfg = .refused .badGeometry

/-- The invariant holds of the reset state. -/
def Obligations.ResetMeetsInvariant : Prop := State.reset.Inv

/-- The invariant is kept by every step, from every state that meets it. -/
def Obligations.StepKeepsInvariant : Prop := ∀ s t : State, s.Inv → step s = .next t → t.Inv

/-- The invariant is kept by `load_image` and by the start of `run` (R276), the fault of `load_image` included. -/
def Obligations.HostOperationsKeepInvariant : Prop :=
  ∀ (s t : State) (a : Word) (bytes : List Byte), s.Inv →
    (loadImage a bytes s = .next t → t.Inv) ∧ (startRun a s = .next t → t.Inv)

/-- R268, R276: a faulted session is over. No step and no host operation answers a next state; reads still work. That a
step answers the session's fault is the model's choice (log 5). -/
def Obligations.FaultedSessionIsOver : Prop :=
  ∀ (s : State) (f : FaultRecord) (a : Word) (bytes : List Byte) (r : RegIdx), s.status = .faulted f →
    step s = .fault (.sessionFaulted f) ∧ loadImage a bytes s = .refused (.sessionFaulted f) ∧
    startRun a s = .refused (.sessionFaulted f) ∧ readRegister r.val s = .ok (s.reg r)

/-- R291: `run(start)` in Idle or Halted sets the pc and the status and nothing else, for any 32-bit start, and a start
outside the span faults at the first fetch with the pc at the start. -/
def Obligations.RunStartsAtGivenAddress : Prop :=
  ∀ (s : State) (start : Word), s.status = .idle ∨ s.status = .halted →
    ∃ t, startRun start s = .next t ∧ t.pc = start ∧ t.status = .running ∧ SameRegs s t ∧ t.mem = s.mem ∧
      t.cfg = s.cfg ∧ t.currentInstructionWord = s.currentInstructionWord ∧ t.currentOpcode = s.currentOpcode ∧
      (s.cfg.span ≤ start.toNat →
        ∃ u, step t = .next u ∧ OnlyStatus t u (.faulted (.memOutOfRange start.toNat .word .fetch)))

/-- R75: `load_image` in Idle or Halted: the bytes that fit below the span are written in order, the first that does not
is reported, later ones are not written, and nothing else changes (the spec's choice D37). -/
def Obligations.LoadImageWritesInOrder : Prop :=
  ∀ (s : State) (offset : Word) (bytes : List Byte) (room : Nat), s.mem.wf →
    s.status = .idle ∨ s.status = .halted → room = s.cfg.span - offset.toNat →
    ∃ t, loadImage offset bytes s = .next t ∧ SameRegs s t ∧ t.pc = s.pc ∧ t.cfg = s.cfg ∧
      t.currentInstructionWord = s.currentInstructionWord ∧ t.currentOpcode = s.currentOpcode ∧
      (∀ i, i < room → ∀ b, bytes[i]? = some b → t.mem.byte (offset.toNat + i) = b) ∧
      (∀ a, (a < offset.toNat ∨ offset.toNat + min bytes.length room ≤ a) → t.mem.byte a = s.mem.byte a) ∧
      (bytes.length ≤ room → t.status = s.status) ∧
      (room < bytes.length → t.status = .faulted (.memOutOfRange (offset.toNat + room) .byte .image))

/-- R76: the display accessor's page array: NUM_PAGES pages of PAGE_SIZE bytes, `page[p][o]` each byte as it stands. -/
def Obligations.MemoryBufferShowsEveryByte : Prop :=
  ∀ s : State, (memoryBuffer s).length = s.cfg.numPages ∧
    ∀ p, p < s.cfg.numPages → ∃ page, (memoryBuffer s)[p]? = some page ∧ page.length = s.cfg.pageSize ∧
      ∀ o, o < s.cfg.pageSize → page[o]? = some (s.mem.byte (p * s.cfg.pageSize + o))

/-- R277: the result of a run does not depend on the bound under which it was computed, and it is the state of a run
that has ended. -/
def Obligations.RunResultIndependentOfFuel : Prop :=
  ∀ (n k : Nat) (s t : State), continueRun n s = some t →
    continueRun (n + k) s = some t ∧ t.status ≠ .running

/-- R9, R43: no step and no host operation changes the parameters of the session. -/
def Obligations.ParametersAreFixed : Prop :=
  ∀ (s t : State) (a : Word) (bytes : List Byte),
    step s = .next t ∨ loadImage a bytes s = .next t ∨ startRun a s = .next t → t.cfg = s.cfg

/-- R127: executing the expansion of `li rd, imm` leaves imm in rd, for every 32-bit imm and every rd but x0, and
changes no other register. -/
def Obligations.LoadImmediateExpansion : Prop :=
  ∀ (rd : RegIdx) (imm : Word) (s : State), rd ≠ 0 →
    ∃ t, execAll (expandLi rd imm) s = .next t ∧ t.reg rd = imm ∧ (∀ r, r ≠ rd → t.reg r = s.reg r) ∧
      SameMemory s t ∧ SameShell s t
end

