-- ==== Sys2Proof/Laws/Memory.lean ====
section
/-! SUPPORT. The laws of one byte of memory and of little-endian values: read after write, and every memory operation
keeps the canonical form. -/

namespace Sys2Proof.Machine

@[simp] theorem Memory.byte_nil (a : Nat) : Memory.byte [] a = unlistedByte := rfl

theorem Memory.byte_of_lt_all {m : Memory} {a : Nat} (h : ∀ c ∈ m, a < c.1) : m.byte a = unlistedByte := by
  induction m with
  | nil => rfl
  | cons c m ih =>
    have hc := h c (by simp)
    have : a ≠ c.1 := by omega
    simp only [Memory.byte, this, if_false]
    exact ih fun d hd => h d (by simp [hd])

/-- A byte after a write to a canonical memory: the written one, and every other as before. -/
theorem Memory.byte_setByte {m : Memory} (h : m.wf) (a b : Nat) (v : Byte) :
    (m.setByte a v).byte b = if b = a then v else m.byte b := by
  induction m with
  | nil =>
    by_cases hv : v = unlistedByte <;> by_cases hb : b = a <;>
      simp [Memory.setByte, Memory.byte, hv, hb]
  | cons c m ih =>
    obtain ⟨c, u⟩ := c
    have hp := List.pairwise_cons.mp h.1
    have hm : Memory.wf m := ⟨hp.2, fun d hd => h.2 d (by simp [hd])⟩
    have hbelow : ∀ x, x ≤ c → Memory.byte m x = unlistedByte := fun x hx =>
      Memory.byte_of_lt_all fun d hd => by have := hp.1 d hd; simp at this; omega
    simp only [Memory.setByte]
    by_cases h1 : a < c
    · by_cases hv : v = unlistedByte <;> by_cases hb : b = a
      · have : b ≠ c := by omega
        simp [h1, hv, hb, Memory.byte, hbelow a (by omega), show a ≠ c by omega]
      · simp [h1, hv, hb]
      · simp [h1, hv, hb, Memory.byte]
      · simp [h1, hv, hb, Memory.byte]
    · by_cases h2 : a = c
      · subst h2
        by_cases hv : v = unlistedByte <;> by_cases hb : b = a
        · simp [hv, hb, hbelow]
        · simp [hv, hb, Memory.byte]
        · simp [hv, hb, Memory.byte]
        · simp [hv, hb, Memory.byte]
      · simp only [h1, h2, if_false, Memory.byte, ih hm]
        by_cases hb : b = c
        · simp [hb, Ne.symm h2]
        · simp [hb]

/-- What a write can list: entries of before, and the written one where it is not the unlisted byte. -/
theorem Memory.mem_setByte {m : Memory} {a : Nat} {v : Byte} {c : Host.Cell} (h : c ∈ m.setByte a v) :
    c ∈ m ∨ (c = (a, v) ∧ v ≠ unlistedByte) := by
  induction m with
  | nil =>
    by_cases hv : v = unlistedByte
    · simp [Memory.setByte, hv] at h
    · simp [Memory.setByte, hv] at h; exact .inr ⟨h, hv⟩
  | cons d m ih =>
    obtain ⟨d, u⟩ := d
    simp only [Memory.setByte] at h
    by_cases hv : v = unlistedByte
    · subst hv
      split at h
      · exact .inl (by simpa using h)
      · split at h
        · exact .inl (by simp_all)
        · rcases List.mem_cons.mp h with h | h
          · exact .inl (by simp [h])
          · rcases ih h with h | h
            · exact .inl (by simp [h])
            · exact .inr h
    · simp only [hv, if_false] at h
      split at h
      · rcases List.mem_cons.mp h with h | h
        · exact .inr ⟨h, hv⟩
        · exact .inl h
      · split at h
        · rcases List.mem_cons.mp h with h | h
          · exact .inr ⟨h, hv⟩
          · exact .inl (by simp [h])
        · rcases List.mem_cons.mp h with h | h
          · exact .inl (by simp [h])
          · rcases ih h with h | h
            · exact .inl (by simp [h])
            · exact .inr h

/-- A one-byte write keeps the canonical form. -/
theorem Memory.setByte_wf {m : Memory} (h : m.wf) (a : Nat) (v : Byte) : (m.setByte a v).wf := by
  refine ⟨?_, fun c hc => ?_⟩
  · induction m with
    | nil => by_cases hv : v = unlistedByte <;> simp [Memory.setByte, hv]
    | cons c m ih =>
      obtain ⟨c, u⟩ := c
      have hp := List.pairwise_cons.mp h.1
      have hm : Memory.wf m := ⟨hp.2, fun d hd => h.2 d (by simp [hd])⟩
      simp only [Memory.setByte]
      by_cases h1 : a < c
      · by_cases hv : v = unlistedByte
        · simpa [h1, hv] using h.1
        · simp only [h1, hv, if_true, if_false]
          refine List.pairwise_cons.mpr ⟨fun d hd => ?_, h.1⟩
          rcases List.mem_cons.mp hd with hd | hd
          · simpa [hd] using h1
          · have := hp.1 d hd; simp at this ⊢; omega
      · by_cases h2 : a = c
        · subst h2
          by_cases hv : v = unlistedByte
          · simpa [hv] using hp.2
          · simpa [hv] using h.1
        · simp only [h1, h2, if_false]
          refine List.pairwise_cons.mpr ⟨fun d hd => ?_, ih hm⟩
          rcases Memory.mem_setByte hd with hd | ⟨hd, -⟩
          · exact hp.1 d hd
          · simp [hd]; omega
  · rcases Memory.mem_setByte hc with hc | ⟨hc, hv⟩
    · exact h.2 c hc
    · simpa [hc] using hv

/-- Every byte after a little-endian store: the stored ones, and every other as before (R66). -/
theorem Memory.byte_writeLE {m : Memory} (h : m.wf) (a b : Nat) (v : Word) (w : Width) :
    (m.writeLE a v w).byte b = if a ≤ b ∧ b < a + w.bytes then byteOfWord v (b - a) else m.byte b := by
  have h0 := Memory.setByte_wf h a (byteOfWord v 0)
  have h1 := Memory.setByte_wf h0 (a + 1) (byteOfWord v 1)
  have h2 := Memory.setByte_wf h1 (a + 2) (byteOfWord v 2)
  by_cases hin : a ≤ b ∧ b < a + w.bytes
  · obtain ⟨i, rfl⟩ : ∃ i, b = a + i := ⟨b - a, by omega⟩
    have hi : i < w.bytes := by omega
    rw [if_pos hin, Nat.add_sub_cancel_left]
    cases w <;> simp only [Width.bytes] at hi
    · obtain rfl : i = 0 := by omega
      simp [Memory.writeLE, Memory.byte_setByte h]
    · have : i = 0 ∨ i = 1 := by omega
      rcases this with rfl | rfl
      · simp [Memory.writeLE, Memory.byte_setByte h, Memory.byte_setByte h0]
      · simp [Memory.writeLE, Memory.byte_setByte h0]
    · have : i = 0 ∨ i = 1 ∨ i = 2 ∨ i = 3 := by omega
      rcases this with rfl | rfl | rfl | rfl
      · simp [Memory.writeLE, Memory.byte_setByte h, Memory.byte_setByte h0, Memory.byte_setByte h1,
          Memory.byte_setByte h2]
      · simp [Memory.writeLE, Memory.byte_setByte h0, Memory.byte_setByte h1, Memory.byte_setByte h2]
      · simp [Memory.writeLE, Memory.byte_setByte h1, Memory.byte_setByte h2]
      · simp [Memory.writeLE, Memory.byte_setByte h2]
  · rw [if_neg hin]
    cases w <;> simp only [Width.bytes] at hin
    · rw [Memory.writeLE, Memory.byte_setByte h, if_neg (by omega)]
    · rw [Memory.writeLE, Memory.byte_setByte h0, if_neg (by omega), Memory.byte_setByte h, if_neg (by omega)]
    · rw [Memory.writeLE, Memory.byte_setByte h2, if_neg (by omega), Memory.byte_setByte h1, if_neg (by omega),
        Memory.byte_setByte h0, if_neg (by omega), Memory.byte_setByte h, if_neg (by omega)]

/-- A store keeps the canonical form. -/
theorem Memory.writeLE_wf {m : Memory} (h : m.wf) (a : Nat) (v : Word) (w : Width) : (m.writeLE a v w).wf := by
  cases w
  · exact Memory.setByte_wf h _ _
  · exact Memory.setByte_wf (Memory.setByte_wf h _ _) _ _
  · exact Memory.setByte_wf (Memory.setByte_wf (Memory.setByte_wf (Memory.setByte_wf h _ _) _ _) _ _) _ _

/-- What a store can list: entries of before, and its own bytes. -/
theorem Memory.mem_writeLE {m : Memory} {a : Nat} {v : Word} {w : Width} {c : Host.Cell} (h : c ∈ m.writeLE a v w) :
    c ∈ m ∨ (a ≤ c.1 ∧ c.1 < a + w.bytes) := by
  cases w <;> simp only [Memory.writeLE] at h <;> simp only [Width.bytes]
  · rcases Memory.mem_setByte h with h | ⟨rfl, -⟩
    · exact .inl h
    · exact .inr ⟨by omega, by omega⟩
  · rcases Memory.mem_setByte h with h | ⟨rfl, -⟩
    · rcases Memory.mem_setByte h with h | ⟨rfl, -⟩
      · exact .inl h
      · exact .inr ⟨by omega, by omega⟩
    · exact .inr ⟨by omega, by omega⟩
  · rcases Memory.mem_setByte h with h | ⟨rfl, -⟩
    · rcases Memory.mem_setByte h with h | ⟨rfl, -⟩
      · rcases Memory.mem_setByte h with h | ⟨rfl, -⟩
        · rcases Memory.mem_setByte h with h | ⟨rfl, -⟩
          · exact .inl h
          · exact .inr ⟨by omega, by omega⟩
        · exact .inr ⟨by omega, by omega⟩
      · exact .inr ⟨by omega, by omega⟩
    · exact .inr ⟨by omega, by omega⟩

/-! ## Words and their bytes -/

theorem byteOfWord_toNat (v : Word) (i : Nat) : (byteOfWord v i).toNat = v.toNat / 256 ^ i % 256 := by
  simp [byteOfWord, Nat.shiftRight_eq_div_pow, Nat.pow_mul]

theorem wordOfBytes_toNat (b0 b1 b2 b3 : Byte) :
    (wordOfBytes b0 b1 b2 b3).toNat =
      b0.toNat + 256 * b1.toNat + 65536 * b2.toNat + 16777216 * b3.toNat := by
  have h0 := b0.isLt
  have h1 := b1.isLt
  have h2 := b2.isLt
  simp only [wordOfBytes, BitVec.toNat_append]
  rw [← Nat.shiftLeft_add_eq_or_of_lt h2, ← Nat.shiftLeft_add_eq_or_of_lt h1, ← Nat.shiftLeft_add_eq_or_of_lt h0]
  simp only [Nat.shiftLeft_eq]
  omega

/-- The four bytes of a word put together again. -/
theorem wordOfBytes_byteOfWord (v : Word) :
    wordOfBytes (byteOfWord v 0) (byteOfWord v 1) (byteOfWord v 2) (byteOfWord v 3) = v := by
  apply BitVec.eq_of_toNat_eq
  have := v.isLt
  simp only [wordOfBytes_toNat, byteOfWord_toNat]
  omega

end Sys2Proof.Machine
end

