-- ==== Sys2Proof/Laws/State.lean ====
section
/-! SUPPORT. One lemma per field per update of State, and the reads of registers after each update. -/

namespace Sys2Proof.Machine

@[simp] theorem State.setPc_cfg (s : State) (a : Word) : (s.setPc a).cfg = s.cfg := rfl
@[simp] theorem State.setPc_pc (s : State) (a : Word) : (s.setPc a).pc = a := rfl
@[simp] theorem State.setPc_regs (s : State) (a : Word) : (s.setPc a).regs = s.regs := rfl
@[simp] theorem State.setPc_mem (s : State) (a : Word) : (s.setPc a).mem = s.mem := rfl
@[simp] theorem State.setPc_currentInstructionWord (s : State) (a : Word) : (s.setPc a).currentInstructionWord = s.currentInstructionWord := rfl
@[simp] theorem State.setPc_currentOpcode (s : State) (a : Word) : (s.setPc a).currentOpcode = s.currentOpcode := rfl
@[simp] theorem State.setPc_status (s : State) (a : Word) : (s.setPc a).status = s.status := rfl
@[simp] theorem State.setPc_reg (s : State) (a : Word) (r : RegIdx) : (s.setPc a).reg r = s.reg r := rfl

@[simp] theorem State.setMem_cfg (s : State) (m : Memory) : (s.setMem m).cfg = s.cfg := rfl
@[simp] theorem State.setMem_pc (s : State) (m : Memory) : (s.setMem m).pc = s.pc := rfl
@[simp] theorem State.setMem_regs (s : State) (m : Memory) : (s.setMem m).regs = s.regs := rfl
@[simp] theorem State.setMem_mem (s : State) (m : Memory) : (s.setMem m).mem = m := rfl
@[simp] theorem State.setMem_currentInstructionWord (s : State) (m : Memory) : (s.setMem m).currentInstructionWord = s.currentInstructionWord := rfl
@[simp] theorem State.setMem_currentOpcode (s : State) (m : Memory) : (s.setMem m).currentOpcode = s.currentOpcode := rfl
@[simp] theorem State.setMem_status (s : State) (m : Memory) : (s.setMem m).status = s.status := rfl
@[simp] theorem State.setMem_reg (s : State) (m : Memory) (r : RegIdx) : (s.setMem m).reg r = s.reg r := rfl

@[simp] theorem State.setStatus_cfg (s : State) (st : Status) : (s.setStatus st).cfg = s.cfg := rfl
@[simp] theorem State.setStatus_pc (s : State) (st : Status) : (s.setStatus st).pc = s.pc := rfl
@[simp] theorem State.setStatus_regs (s : State) (st : Status) : (s.setStatus st).regs = s.regs := rfl
@[simp] theorem State.setStatus_mem (s : State) (st : Status) : (s.setStatus st).mem = s.mem := rfl
@[simp] theorem State.setStatus_currentInstructionWord (s : State) (st : Status) : (s.setStatus st).currentInstructionWord = s.currentInstructionWord := rfl
@[simp] theorem State.setStatus_currentOpcode (s : State) (st : Status) : (s.setStatus st).currentOpcode = s.currentOpcode := rfl
@[simp] theorem State.setStatus_status (s : State) (st : Status) : (s.setStatus st).status = st := rfl
@[simp] theorem State.setStatus_reg (s : State) (st : Status) (r : RegIdx) : (s.setStatus st).reg r = s.reg r := rfl

@[simp] theorem State.advance_cfg (s : State) : s.advance.cfg = s.cfg := rfl
@[simp] theorem State.advance_pc (s : State) : s.advance.pc = s.pc + 4 := rfl
@[simp] theorem State.advance_regs (s : State) : s.advance.regs = s.regs := rfl
@[simp] theorem State.advance_mem (s : State) : s.advance.mem = s.mem := rfl
@[simp] theorem State.advance_currentInstructionWord (s : State) : s.advance.currentInstructionWord = s.currentInstructionWord := rfl
@[simp] theorem State.advance_currentOpcode (s : State) : s.advance.currentOpcode = s.currentOpcode := rfl
@[simp] theorem State.advance_status (s : State) : s.advance.status = s.status := rfl
@[simp] theorem State.advance_reg (s : State) (r : RegIdx) : s.advance.reg r = s.reg r := rfl

@[simp] theorem latch_cfg (s : State) (w : Word) : (latch w s).cfg = s.cfg := rfl
@[simp] theorem latch_pc (s : State) (w : Word) : (latch w s).pc = s.pc := rfl
@[simp] theorem latch_regs (s : State) (w : Word) : (latch w s).regs = s.regs := rfl
@[simp] theorem latch_mem (s : State) (w : Word) : (latch w s).mem = s.mem := rfl
@[simp] theorem latch_currentInstructionWord (s : State) (w : Word) : (latch w s).currentInstructionWord = w := rfl
@[simp] theorem latch_currentOpcode (s : State) (w : Word) : (latch w s).currentOpcode = (opcodeField w).setWidth 8 := rfl
@[simp] theorem latch_status (s : State) (w : Word) : (latch w s).status = s.status := rfl
@[simp] theorem latch_reg (s : State) (w : Word) (r : RegIdx) : (latch w s).reg r = s.reg r := rfl

@[simp] theorem State.setReg_cfg (s : State) (r : RegIdx) (v : Word) : (s.setReg r v).cfg = s.cfg := by
  unfold State.setReg; split <;> rfl
@[simp] theorem State.setReg_pc (s : State) (r : RegIdx) (v : Word) : (s.setReg r v).pc = s.pc := by
  unfold State.setReg; split <;> rfl
@[simp] theorem State.setReg_mem (s : State) (r : RegIdx) (v : Word) : (s.setReg r v).mem = s.mem := by
  unfold State.setReg; split <;> rfl
@[simp] theorem State.setReg_currentInstructionWord (s : State) (r : RegIdx) (v : Word) : (s.setReg r v).currentInstructionWord = s.currentInstructionWord := by
  unfold State.setReg; split <;> rfl
@[simp] theorem State.setReg_currentOpcode (s : State) (r : RegIdx) (v : Word) : (s.setReg r v).currentOpcode = s.currentOpcode := by
  unfold State.setReg; split <;> rfl
@[simp] theorem State.setReg_status (s : State) (r : RegIdx) (v : Word) : (s.setReg r v).status = s.status := by
  unfold State.setReg; split <;> rfl

@[simp] theorem State.reg_zero (s : State) : s.reg 0 = 0 := rfl

/-- A write to x0 changes nothing (R32). -/
@[simp] theorem State.setReg_zero (s : State) (v : Word) : s.setReg 0 v = s := rfl

/-- Reading any register after a write (R32, R33). -/
theorem State.setReg_reg (s : State) (rd r : RegIdx) (v : Word) :
    (s.setReg rd v).reg r = if r = 0 then 0 else if r = rd then v else s.reg r := by
  unfold State.setReg State.reg
  by_cases hr : r = 0
  · simp [hr]
  · by_cases hd : rd = 0
    · have : ¬ r = rd := fun h => hr (h.trans hd)
      simp [hr, hd]
    · by_cases h : r = rd
      · simp [hd, h]
      · have : rd.val ≠ r.val := fun e => h (Fin.ext e.symm)
        simp [hr, hd, h, this]

@[simp] theorem State.setReg_reg_same (s : State) (r : RegIdx) (v : Word) (h : r ≠ 0) : (s.setReg r v).reg r = v := by
  simp [State.setReg_reg, h]

theorem State.setReg_reg_other (s : State) (rd r : RegIdx) (v : Word) (h : r ≠ rd) :
    (s.setReg rd v).reg r = s.reg r := by
  by_cases hr : r = 0
  · simp [hr]
  · simp [State.setReg_reg, hr, h]

/-- The cell of x0 is never written (log 8). -/
@[simp] theorem State.setReg_cell_zero (s : State) (rd : RegIdx) (v : Word) : (s.setReg rd v).regs[0] = s.regs[0] := by
  unfold State.setReg
  split
  · rfl
  · rename_i h
    have : rd.val ≠ 0 := fun e => h (Fin.ext e)
    simp [this]

end Sys2Proof.Machine
end

