-- ==== Sys2Proof/Laws/Ops.lean ====
section
/-! SUPPORT. The geometry in division and remainder, the access checks, and one lemma per accessor that says everything
it can do. -/

namespace Sys2Proof

theorem Config.pageSize_pos (c : Config) : 0 < c.pageSize := Nat.two_pow_pos _

theorem Config.pageIndex_eq_div (c : Config) (a : Nat) : c.pageIndex a = a / c.pageSize :=
  Nat.shiftRight_eq_div_pow _ _

theorem Config.pageOffset_eq_mod (c : Config) (a : Nat) : c.pageOffset a = a % c.pageSize :=
  Nat.and_two_pow_sub_one_eq_mod _ _

theorem Config.pageOffset_lt (c : Config) (a : Nat) : c.pageOffset a < c.pageSize := by
  rw [Config.pageOffset_eq_mod]; exact Nat.mod_lt _ c.pageSize_pos

/-- An address's page is beyond the last one exactly when the address is at or above the span (R73). -/
theorem Config.numPages_le_pageIndex (c : Config) (a : Nat) : c.numPages ≤ c.pageIndex a ↔ c.span ≤ a := by
  rw [Config.pageIndex_eq_div, Nat.le_div_iff_mul_le c.pageSize_pos, Config.span]

theorem Width.bytes_pos (w : Width) : 0 < w.bytes := by cases w <;> decide

theorem Width.bytes_le_four (w : Width) : w.bytes ≤ 4 := by cases w <;> decide

end Sys2Proof

namespace Sys2Proof.Machine

/-- The access checks in one form: a byte never crosses a page (R64). -/
theorem accessFault_eq (c : Config) (a : Nat) (w : Width) (k : AccessKind) :
    accessFault c a w k =
      if c.span ≤ a then some (.memOutOfRange a w k)
      else if c.pageSize < a % c.pageSize + w.bytes then some (.memCrossPage a w k)
      else none := by
  unfold accessFault
  simp only [Config.numPages_le_pageIndex, Config.pageOffset_eq_mod]
  have h := Nat.mod_lt a c.pageSize_pos
  by_cases h1 : c.span ≤ a
  · simp [h1]
  · have hw : (w ≠ .byte ∧ c.pageSize < a % c.pageSize + w.bytes) ↔ c.pageSize < a % c.pageSize + w.bytes := by
      refine ⟨fun h2 => h2.2, fun h2 => ⟨?_, h2⟩⟩
      rintro rfl
      simp only [Width.bytes] at h2
      omega
    simp only [h1, if_false]
    by_cases h2 : c.pageSize < a % c.pageSize + w.bytes
    · rw [if_pos (hw.mpr h2), if_pos h2]
    · rw [if_neg (fun h3 => h2 (hw.mp h3)), if_neg h2]

theorem accessFault_none {c : Config} {a : Nat} {w : Width} {k : AccessKind} :
    accessFault c a w k = none ↔ a < c.span ∧ a % c.pageSize + w.bytes ≤ c.pageSize := by
  rw [accessFault_eq]
  by_cases h1 : c.span ≤ a
  · simp [h1]
  · by_cases h2 : c.pageSize < a % c.pageSize + w.bytes
    · simp [h1, h2]
    · simp only [h1, h2, if_false, true_iff]; omega

/-- Every byte of an access that passes the checks is backed (R61, R73). -/
theorem access_below_span {c : Config} {a : Nat} {w : Width} {k : AccessKind} (h : accessFault c a w k = none) :
    a + w.bytes ≤ c.span := by
  obtain ⟨h1, h2⟩ := accessFault_none.mp h
  have hq : a / c.pageSize < c.numPages := by rw [Nat.div_lt_iff_lt_mul c.pageSize_pos]; exact h1
  have := Nat.div_add_mod a c.pageSize
  calc a + w.bytes ≤ c.pageSize * (a / c.pageSize + 1) := by rw [Nat.mul_add]; omega
    _ ≤ c.pageSize * c.numPages := Nat.mul_le_mul_left _ hq
    _ = c.span := by rw [Config.span, Nat.mul_comm]

/-- The checks do not depend on the access kind but for the record. -/
theorem accessFault_kind {c : Config} {a : Nat} {w : Width} {k k' : AccessKind} (h : accessFault c a w k = none) :
    accessFault c a w k' = none := by
  rw [accessFault_none] at *; exact h

/-- A fault of an access is one of the two memory faults, with the access's own address, width and kind. -/
theorem accessFault_some {c : Config} {a : Nat} {w : Width} {k : AccessKind} {f : FaultRecord}
    (h : accessFault c a w k = some f) : f = .memOutOfRange a w k ∨ f = .memCrossPage a w k := by
  rw [accessFault_eq] at h
  split at h
  · exact .inl (Option.some.inj h).symm
  · split at h
    · exact .inr (Option.some.inj h).symm
    · cases h

/-- A word can always be fetched at address 0 under a legal geometry. -/
theorem accessFault_zero {c : Config} (h : c.valid) (k : AccessKind) : accessFault c 0 .word k = none := by
  have h4 : 4 ≤ c.pageSize := by
    have := Nat.pow_le_pow_right (n := 2) (by decide) h.1
    simpa [Config.pageSize] using this
  rw [accessFault_none]
  refine ⟨Nat.mul_pos (by have := h.2.2.1; omega) c.pageSize_pos, ?_⟩
  simpa [Width.bytes] using h4

theorem memRead_eq_ok {c : Config} {m : Memory} {a : Nat} {w : Width} {k : AccessKind}
    (h : accessFault c a w k = none) : memRead c m a w k = .ok (m.readLE a w) := by simp [memRead, h]

theorem memRead_eq_error {c : Config} {m : Memory} {a : Nat} {w : Width} {k : AccessKind} {f : FaultRecord}
    (h : accessFault c a w k = some f) : memRead c m a w k = .error f := by simp [memRead, h]

theorem memWrite_eq_ok {c : Config} {m : Memory} {a : Nat} {w : Width} {k : AccessKind} {v : Word}
    (h : accessFault c a w k = none) : memWrite c m a w k v = .ok (m.writeLE a v w) := by simp [memWrite, h]

theorem memWrite_eq_error {c : Config} {m : Memory} {a : Nat} {w : Width} {k : AccessKind} {v : Word} {f : FaultRecord}
    (h : accessFault c a w k = some f) : memWrite c m a w k v = .error f := by simp [memWrite, h]

theorem memWrite_ok {c : Config} {m m' : Memory} {a : Nat} {w : Width} {k : AccessKind} {v : Word}
    (h : memWrite c m a w k v = .ok m') : accessFault c a w k = none ∧ m' = m.writeLE a v w := by
  unfold memWrite at h
  split at h
  · cases h
  · exact ⟨by assumption, (Except.ok.inj h).symm⟩

theorem memWrite_error {c : Config} {m : Memory} {a : Nat} {w : Width} {k : AccessKind} {v : Word} {f : FaultRecord}
    (h : memWrite c m a w k v = .error f) : accessFault c a w k = some f := by
  unfold memWrite at h
  split at h
  · rename_i g hg; rw [hg, Except.error.inj h]
  · cases h

/-- The little-endian value read, byte by byte. -/
theorem Memory.readLE_toNat (m : Memory) (a : Nat) (w : Width) :
    (m.readLE a w).toNat =
      match w with
      | .byte => (m.byte a).toNat
      | .half => (m.byte a).toNat + 256 * (m.byte (a + 1)).toNat
      | .word => (m.byte a).toNat + 256 * (m.byte (a + 1)).toNat + 65536 * (m.byte (a + 2)).toNat +
          16777216 * (m.byte (a + 3)).toNat := by
  cases w <;> simp [Memory.readLE, wordOfBytes_toNat]

/-- Reading back a word that was stored. -/
theorem Memory.readLE_writeLE_word {m : Memory} (h : m.wf) (a : Nat) (v : Word) :
    (m.writeLE a v .word).readLE a .word = v := by
  simp only [Memory.readLE]
  rw [Memory.byte_writeLE h, if_pos ⟨by omega, by simp [Width.bytes]⟩, Memory.byte_writeLE h,
    if_pos ⟨by omega, by simp [Width.bytes]⟩, Memory.byte_writeLE h, if_pos ⟨by omega, by simp [Width.bytes]⟩,
    Memory.byte_writeLE h, if_pos ⟨by omega, by simp [Width.bytes]⟩]
  simpa using wordOfBytes_byteOfWord v

end Sys2Proof.Machine
end

