-- ==== Sys2Proof/Laws/Exec.lean ====
section
/-! SUPPORT. One lemma per shared operation of the meanings, saying everything it can do, and the inversion lemma of
exec: what any instruction can do. -/

namespace Sys2Proof.Machine

theorem SameShell.refl (s : State) : SameShell s s := ⟨rfl, rfl, rfl, rfl⟩

/-- Everything `writeBack` does. -/
theorem writeBack_spec (rd : RegIdx) (v : Word) (s : State) :
    ∃ t, writeBack rd v s = .next t ∧ WritesReg s t rd v (s.pc + 4) :=
  ⟨_, rfl, by simp, fun r => by simp [State.setReg_reg], fun a => by simp, by simp, by simp, by simp, by simp⟩

/-- Everything `jumpAndLink` does. -/
theorem jumpAndLink_spec (rd : RegIdx) (target : Word) (s : State) :
    ∃ t, jumpAndLink rd target s = .next t ∧ WritesReg s t rd (s.pc + 4) target :=
  ⟨_, rfl, by simp, fun r => by simp [State.setReg_reg, linkAddress], fun a => by simp, by simp, by simp, by simp,
    by simp⟩

/-- Everything raising a fault does (R260). -/
theorem raise_spec (f : FaultRecord) (s : State) :
    ∃ t, raise f s = .next t ∧ OnlyStatus s t (.faulted f) :=
  ⟨_, rfl, rfl, rfl, fun _ => rfl, fun _ => rfl, rfl, rfl, rfl⟩

/-- Everything a halt does (R244). -/
theorem halt_spec (s : State) : ∃ t, halt s = .next t ∧ OnlyStatus s t .halted :=
  ⟨_, rfl, rfl, rfl, fun _ => rfl, fun _ => rfl, rfl, rfl, rfl⟩

/-- A load whose access faults. -/
theorem load_fault {w : Width} {e : Word → Word} {rd rs1 : RegIdx} {imm : BitVec 12} {s : State} {f : FaultRecord}
    (h : accessFault s.cfg (loadAddress s w rs1 imm) w .load = some f) : load w e rd rs1 imm s = raise f s := by
  simp [load, memRead_eq_error h]

/-- A load whose access passes. -/
theorem load_ok {w : Width} {e : Word → Word} {rd rs1 : RegIdx} {imm : BitVec 12} {s : State}
    (h : accessFault s.cfg (loadAddress s w rs1 imm) w .load = none) :
    load w e rd rs1 imm s = writeBack rd (e (s.mem.readLE (loadAddress s w rs1 imm) w)) s := by
  simp [load, memRead_eq_ok h]

/-- A store whose access faults. -/
theorem store_fault {w : Width} {rs2 rs1 : RegIdx} {imm : BitVec 12} {s : State} {f : FaultRecord}
    (h : accessFault s.cfg (storeAddress s rs1 imm) w .store = some f) : store w rs2 rs1 imm s = raise f s := by
  simp [store, memWrite_eq_error h]

/-- A store whose access passes. -/
theorem store_ok {w : Width} {rs2 rs1 : RegIdx} {imm : BitVec 12} {s : State}
    (h : accessFault s.cfg (storeAddress s rs1 imm) w .store = none) :
    store w rs2 rs1 imm s = .next (s.setMem (s.mem.writeLE (storeAddress s rs1 imm) (s.reg rs2) w)).advance := by
  simp [store, memWrite_eq_ok h]

/-- The whole effect of a store on a canonical memory. -/
theorem store_spec {w : Width} {rs2 rs1 : RegIdx} {imm : BitVec 12} {s : State} (hm : s.mem.wf)
    (h : accessFault s.cfg (storeAddress s rs1 imm) w .store = none) :
    ∃ t, store w rs2 rs1 imm s = .next t ∧ StoresBytes s t (storeAddress s rs1 imm) w.bytes (s.reg rs2) := by
  refine ⟨_, store_ok h, rfl, fun _ => rfl, ⟨rfl, rfl, rfl, rfl⟩, fun i hi => ?_, fun b hb => ?_⟩
  · simp only [State.advance_mem, State.setMem_mem]
    rw [Memory.byte_writeLE hm, if_pos ⟨by omega, by omega⟩, Nat.add_sub_cancel_left, byteOfWord_toNat]
  · simp only [State.advance_mem, State.setMem_mem]
    rw [Memory.byte_writeLE hm, if_neg (by omega)]

/-- A branch not taken. -/
theorem branch_not_taken (offset : BitVec 13) (s : State) :
    ∃ t, branch false offset s = .next t ∧ OnlyPc s t (s.pc + 4) :=
  ⟨_, rfl, rfl, fun _ => rfl, fun _ => rfl, rfl, rfl, rfl, rfl⟩

/-- A branch taken, without the link write. -/
theorem branch_taken_noLink (offset : BitVec 13) (s : State) (h : s.cfg.branchLink = .noLink) :
    ∃ t, branch true offset s = .next t ∧ OnlyPc s t (s.pc + branchOffset offset) := by
  refine ⟨_, rfl, ?_⟩
  simp only [branchLinkWrite, h]
  exact ⟨rfl, fun _ => rfl, fun _ => rfl, rfl, rfl, rfl, rfl⟩

/-- A branch taken, with the link write. -/
theorem branch_taken_linkX1 (offset : BitVec 13) (s : State) (h : s.cfg.branchLink = .linkX1) :
    ∃ t, branch true offset s = .next t ∧ WritesReg s t 1 (s.pc + 4) (s.pc + branchOffset offset) := by
  refine ⟨_, rfl, ?_⟩
  simp only [branchLinkWrite, h]
  exact ⟨rfl, fun r => by simp [State.setReg_reg, linkAddress], fun a => by simp, by simp, by simp, by simp, by simp⟩

/-! ## What any instruction can do -/

/-- The three shapes of an instruction's next state: its access faults; it halts; or it completes, keeping the
parameters, the latched fields and the status, x0's cell, every register but its destinations, and every byte but those
a store stores. -/
inductive ExecCase (i : Instr) (s t : State) : Prop where
  | faults (f : FaultRecord) (h : instrFault i s = some f) (e : t = s.setStatus (.faulted f))
  | halted (h : halts i = true) (e : t = s.setStatus .halted)
  | completes (ok : instrFault i s = none) (h : halts i = false) (shell : SameShell s t) (x0 : t.regs[0] = s.regs[0])
      (regs : ∀ r, r ∉ destinations i s → t.reg r = s.reg r)
      (mem : t.mem = s.mem ∨
        ∃ a w v, memoryAccess i s = some (a, w, .store) ∧ t.mem = s.mem.writeLE a v w)

theorem execCase_writeBack {i : Instr} {s : State} {rd : RegIdx} {v : Word} (ok : instrFault i s = none)
    (h : halts i = false) (hd : destinations i s = [rd]) :
    ∃ t, writeBack rd v s = .next t ∧ ExecCase i s t :=
  ⟨_, rfl, .completes ok h ⟨by simp, by simp, by simp, by simp⟩ (by simp)
    (fun r hr => by rw [hd] at hr; simpa using State.setReg_reg_other s rd r v (by simpa using hr)) (.inl (by simp))⟩

theorem execCase_jump {i : Instr} {s : State} {rd : RegIdx} {target : Word} (ok : instrFault i s = none)
    (h : halts i = false) (hd : destinations i s = [rd]) :
    ∃ t, jumpAndLink rd target s = .next t ∧ ExecCase i s t :=
  ⟨_, rfl, .completes ok h ⟨by simp, by simp, by simp, by simp⟩ (by simp)
    (fun r hr => by rw [hd] at hr; simpa using State.setReg_reg_other s rd r _ (by simpa using hr)) (.inl (by simp))⟩

theorem execCase_halt {i : Instr} {s : State} (h : halts i = true) : ∃ t, halt s = .next t ∧ ExecCase i s t :=
  ⟨_, rfl, .halted h rfl⟩

theorem execCase_load {i : Instr} {s : State} {w : Width} {e : Word → Word} {rd rs1 : RegIdx} {imm : BitVec 12}
    (ha : memoryAccess i s = some (loadAddress s w rs1 imm, w, .load)) (h : halts i = false)
    (hd : destinations i s = [rd]) : ∃ t, load w e rd rs1 imm s = .next t ∧ ExecCase i s t := by
  have hf : instrFault i s = accessFault s.cfg (loadAddress s w rs1 imm) w .load := by simp [instrFault, ha]
  cases h0 : accessFault s.cfg (loadAddress s w rs1 imm) w .load with
  | some f => exact ⟨_, load_fault h0, .faults f (hf.trans h0) rfl⟩
  | none => rw [load_ok h0]; exact execCase_writeBack (hf.trans h0) h hd

theorem execCase_store {i : Instr} {s : State} {w : Width} {rs2 rs1 : RegIdx} {imm : BitVec 12}
    (ha : memoryAccess i s = some (storeAddress s rs1 imm, w, .store)) (h : halts i = false) :
    ∃ t, store w rs2 rs1 imm s = .next t ∧ ExecCase i s t := by
  have hf : instrFault i s = accessFault s.cfg (storeAddress s rs1 imm) w .store := by simp [instrFault, ha]
  cases h0 : accessFault s.cfg (storeAddress s rs1 imm) w .store with
  | some f => exact ⟨_, store_fault h0, .faults f (hf.trans h0) rfl⟩
  | none =>
    exact ⟨_, store_ok h0, .completes (hf.trans h0) h ⟨rfl, rfl, rfl, rfl⟩ rfl (fun _ _ => rfl)
      (.inr ⟨_, _, _, ha, rfl⟩)⟩

theorem execCase_branch {i : Instr} {s : State} {taken : Bool} {offset : BitVec 13} (ok : instrFault i s = none)
    (h : halts i = false)
    (hd : destinations i s = match s.cfg.branchLink with | .noLink => [] | .linkX1 => [1]) :
    ∃ t, branch taken offset s = .next t ∧ ExecCase i s t := by
  cases taken with
  | false => exact ⟨_, rfl, .completes ok h ⟨rfl, rfl, rfl, rfl⟩ rfl (fun _ _ => rfl) (.inl rfl)⟩
  | true =>
    cases hb : s.cfg.branchLink with
    | noLink =>
      refine ⟨_, rfl, ?_⟩
      simp only [branchLinkWrite, hb]
      exact .completes ok h ⟨rfl, rfl, rfl, rfl⟩ rfl (fun _ _ => rfl) (.inl rfl)
    | linkX1 =>
      refine ⟨_, rfl, ?_⟩
      simp only [branchLinkWrite, hb]
      rw [hb] at hd
      exact .completes ok h ⟨by simp, by simp, by simp, by simp⟩ (by simp)
        (fun r hr => by rw [hd] at hr; simpa using State.setReg_reg_other s 1 r _ (by simpa using hr)) (.inl (by simp))

/-- Every instruction answers a next state, of one of the three shapes. -/
theorem exec_cases (i : Instr) (s : State) : ∃ t, exec i s = .next t ∧ ExecCase i s t := by
  cases i with
  | lui | addi | slti | sltiu | xori | ori | andi | slli | srli | srai | add | sub | sll | slt | sltu | xor | srl | sra
  | or | and | mul | mulh | mulhsu | mulhu | div | divu | rem | remu => exact execCase_writeBack rfl rfl rfl
  | jal | jalr => exact execCase_jump rfl rfl rfl
  | beq | bne | blt | bge | bltu | bgeu => exact execCase_branch rfl rfl rfl
  | lb | lh | lw | lbu | lhu => exact execCase_load rfl rfl rfl
  | sb | sh | sw => exact execCase_store rfl rfl
  | ecall | ebreak | systemOther | zeroHalt => exact execCase_halt rfl

end Sys2Proof.Machine
end

