-- ==== Sys2Proof/Laws/Cycle.lean ====
section
/-! SUPPORT. What a decoded word can be, what latching changes, the inversion lemma of step, and what the host's image
loading does. -/

namespace Sys2Proof

/-- Only the two halting opcodes decode to a halting instruction (R121). -/
theorem decode_halts {w : Word} {i : Instr} (h : decode w = .instr i) : Machine.halts i = true ↔ Machine.haltingWord w := by
  constructor
  · intro hh
    unfold decode at h
    unfold Machine.haltingWord
    split at h <;> first
      | (cases h; simp [Machine.halts] at hh; done)
      | (simp_all; done)
      | skip
    all_goals simp only [decodeJalr, decodeBranch, decodeLoad, decodeStore, decodeOpImm, decodeOp, decodeShiftLeftImm,
      decodeShiftRightImm, illegalFunct3, illegalShiftImm] at h
    all_goals (repeat' split at h) <;> cases h <;> simp [Machine.halts] at hh
  · rintro (h1 | h1)
    · simp only [decode, h1] at h; cases h
      unfold decodeSystem; split; · rfl
      split <;> rfl
    · simp only [decode, h1] at h; cases h; rfl

/-- A decode fault records the word and is one of the four decode kinds (R124). -/
theorem decode_illegal {w : Word} {f : FaultRecord} (h : decode w = .illegal f) :
    (∃ op, f = .illegalOpcode w op) ∨ (∃ op f3, f = .illegalFunct3 w op f3) ∨
      (∃ f3 hi, f = .illegalShiftImm w f3 hi) ∨ ∃ k, f = .illegalRKey w k := by
  unfold decode at h
  split at h
  all_goals first
    | (cases h; done)
    | (cases h; exact .inl ⟨_, rfl⟩)
    | skip
  all_goals simp only [decodeJalr, decodeBranch, decodeLoad, decodeStore, decodeOpImm, decodeOp, decodeShiftLeftImm,
    decodeShiftRightImm, illegalFunct3, illegalShiftImm] at h
  all_goals (repeat' split at h) <;> cases h <;> simp

end Sys2Proof

namespace Sys2Proof.Machine

@[simp] theorem memoryAccess_latch (i : Instr) (s : State) (w : Word) :
    memoryAccess i (latch w s) = memoryAccess i s := by cases i <;> rfl

@[simp] theorem memoryAccess_setStatus (i : Instr) (s : State) (st : Status) :
    memoryAccess i (s.setStatus st) = memoryAccess i s := by cases i <;> rfl

@[simp] theorem instrFault_latch (i : Instr) (s : State) (w : Word) : instrFault i (latch w s) = instrFault i s := by
  simp [instrFault]

@[simp] theorem destinations_latch (i : Instr) (s : State) (w : Word) :
    destinations i (latch w s) = destinations i s := by cases i <;> rfl

/-- A fetch that succeeds read the word at pc. -/
theorem fetch_ok {s : State} {w : Word} (h : fetch s = .ok w) :
    accessFault s.cfg s.pc.toNat .word .fetch = none ∧ w = s.mem.readLE s.pc.toNat .word := by
  unfold fetch memRead at h
  split at h
  · cases h
  · exact ⟨by assumption, (Except.ok.inj h).symm⟩

/-- A fetch that fails failed by the access checks. -/
theorem fetch_error {s : State} {f : FaultRecord} (h : fetch s = .error f) :
    accessFault s.cfg s.pc.toNat .word .fetch = some f := by
  unfold fetch memRead at h
  split at h
  · rename_i g hg; rw [hg, Except.error.inj h]
  · cases h

theorem step_running {s : State} (h : s.status = .running) : step s = cycle s := by simp [step, h]

/-- Everything a step that answers a next state can do (R46). -/
inductive StepCase (s t : State) : Prop where
  | stands (h : s.status = .idle ∨ s.status = .halted) (e : t = s)
  | fetchFault (f : FaultRecord) (run : s.status = .running) (h : fetch s = .error f)
      (e : t = s.setStatus (.faulted f))
  | decodeFault (w : Word) (f : FaultRecord) (run : s.status = .running) (h : fetch s = .ok w)
      (d : decode w = .illegal f) (e : t = (latch w s).setStatus (.faulted f))
  | runs (w : Word) (i : Instr) (run : s.status = .running) (h : fetch s = .ok w) (d : decode w = .instr i)
      (x : exec i (latch w s) = .next t) (c : ExecCase i (latch w s) t)

theorem step_cases {s t : State} (h : step s = .next t) : StepCase s t := by
  unfold step at h
  cases hs : s.status with
  | idle => rw [hs] at h; cases h; exact .stands (.inl hs) rfl
  | halted => rw [hs] at h; cases h; exact .stands (.inr hs) rfl
  | faulted f => rw [hs] at h; cases h
  | running =>
    rw [hs] at h
    simp only [cycle] at h
    cases hf : fetch s with
    | error g => rw [hf] at h; cases h; exact .fetchFault g hs hf rfl
    | ok w =>
      rw [hf] at h
      simp only [] at h
      cases hd : decode w with
      | illegal g => rw [hd] at h; cases h; exact .decodeFault w g hs hf hd rfl
      | instr i =>
        rw [hd] at h
        simp only [] at h
        obtain ⟨t', h', hc⟩ := exec_cases i (latch w s)
        rw [h'] at h
        cases h
        exact .runs w i hs hf hd h' hc

/-- A running core always takes a step: only a faulted session has none. -/
theorem step_total {s : State} (h : s.status = .running) : ∃ t, step s = .next t := by
  rw [step_running h, cycle]
  split
  · exact ⟨_, rfl⟩
  · split
    · exact ⟨_, rfl⟩
    · rename_i i _
      obtain ⟨t, h, -⟩ := exec_cases i _
      exact ⟨t, h⟩

/-- A one-byte access faults exactly at or above the span (R63, R64). -/
theorem accessFault_byte (c : Config) (a : Nat) (k : AccessKind) :
    accessFault c a .byte k = if c.span ≤ a then some (.memOutOfRange a .byte k) else none := by
  have := Nat.mod_lt a c.pageSize_pos
  rw [accessFault_eq]
  split
  · rfl
  · rw [if_neg (by simp only [Width.bytes]; omega)]

/-- Everything the byte writes of `load_image` do, whatever their number (R75, R67). -/
theorem loadBytes_cases {c : Config} {bytes : List Byte} {m m' : Memory} {a : Nat} {o : Option FaultRecord}
    (h : loadBytes c m a bytes = (m', o)) :
    (m.wf → m'.wf) ∧ ((∀ x ∈ m, x.1 < c.span) → ∀ x ∈ m', x.1 < c.span) ∧
      ∀ f, o = some f → ∃ b, f = .memOutOfRange b .byte .image ∧ accessFault c b .byte .image = some f := by
  induction bytes generalizing m a with
  | nil => cases h; simp
  | cons b bs ih =>
    unfold loadBytes at h
    split at h
    · rename_i f hf
      cases h
      refine ⟨id, id, fun g hg => ?_⟩
      cases hg
      have hx := memWrite_error hf
      refine ⟨a, ?_, hx⟩
      rw [accessFault_byte] at hx
      split at hx
      · exact (Option.some.inj hx).symm
      · cases hx
    · rename_i m1 hf
      obtain ⟨h0, rfl⟩ := memWrite_ok hf
      obtain ⟨h1, h2, h3⟩ := ih h
      refine ⟨fun g => h1 (Memory.writeLE_wf g _ _ _), fun g => h2 fun x hx => ?_, h3⟩
      rcases Memory.mem_writeLE hx with hx | hx
      · exact g x hx
      · have := access_below_span h0; omega

end Sys2Proof.Machine
end

