-- ==== Sys2Proof/Laws/Decode.lean ====
section
/-! SUPPORT. Each field of each encoded format reads back what was encoded (R101 to R113). -/

namespace Sys2Proof

@[simp] theorem toFin_regBits (r : RegIdx) : (regBits r).toFin = r := rfl

theorem regBits_injective {r q : RegIdx} (h : regBits r = regBits q) : r = q := by
  rw [← toFin_regBits r, h, toFin_regBits]

/-- The bits of a field of a word, from its bits. -/
theorem extract_eq_of_bits {n k : Nat} {w : Word} {v : BitVec n}
    (h : ∀ i (_ : i < n), w.getLsbD (k + i) = v.getLsbD i) : w.extractLsb' k n = v := by
  apply BitVec.eq_of_getLsbD_eq
  intro i hi
  simp [hi, h i hi]

@[simp] theorem opcodeField_encodeR (funct7 : BitVec 7) (rs2 rs1 : RegIdx) (funct3 : BitVec 3) (rd : RegIdx) (op : BitVec 7) :
    opcodeField (encodeR funct7 rs2 rs1 funct3 rd op) = op := by
  refine extract_eq_of_bits fun i hi => ?_
  simp only [encodeR, BitVec.getLsbD_append]
  interval_cases i <;> simp

@[simp] theorem funct3Field_encodeR (funct7 : BitVec 7) (rs2 rs1 : RegIdx) (funct3 : BitVec 3) (rd : RegIdx) (op : BitVec 7) :
    funct3Field (encodeR funct7 rs2 rs1 funct3 rd op) = funct3 := by
  refine extract_eq_of_bits fun i hi => ?_
  simp only [encodeR, BitVec.getLsbD_append]
  interval_cases i <;> simp

@[simp] theorem funct7Field_encodeR (funct7 : BitVec 7) (rs2 rs1 : RegIdx) (funct3 : BitVec 3) (rd : RegIdx) (op : BitVec 7) :
    funct7Field (encodeR funct7 rs2 rs1 funct3 rd op) = funct7 := by
  refine extract_eq_of_bits fun i hi => ?_
  simp only [encodeR, BitVec.getLsbD_append]
  interval_cases i <;> simp

@[simp] theorem keyField_encodeR (funct7 : BitVec 7) (rs2 rs1 : RegIdx) (funct3 : BitVec 3) (rd : RegIdx) (op : BitVec 7) :
    keyField (encodeR funct7 rs2 rs1 funct3 rd op) = funct7 ++ funct3 := by
  rw [keyField, funct7Field_encodeR, funct3Field_encodeR]

@[simp] theorem rdField_encodeR (funct7 : BitVec 7) (rs2 rs1 : RegIdx) (funct3 : BitVec 3) (rd : RegIdx) (op : BitVec 7) :
    rdField (encodeR funct7 rs2 rs1 funct3 rd op) = rd := by
  have h : (encodeR funct7 rs2 rs1 funct3 rd op).extractLsb' 7 5 = regBits rd := by
    refine extract_eq_of_bits fun i hi => ?_
    simp only [encodeR, BitVec.getLsbD_append]
    interval_cases i <;> simp
  rw [rdField, h, toFin_regBits]

@[simp] theorem rs1Field_encodeR (funct7 : BitVec 7) (rs2 rs1 : RegIdx) (funct3 : BitVec 3) (rd : RegIdx) (op : BitVec 7) :
    rs1Field (encodeR funct7 rs2 rs1 funct3 rd op) = rs1 := by
  have h : (encodeR funct7 rs2 rs1 funct3 rd op).extractLsb' 15 5 = regBits rs1 := by
    refine extract_eq_of_bits fun i hi => ?_
    simp only [encodeR, BitVec.getLsbD_append]
    interval_cases i <;> simp
  rw [rs1Field, h, toFin_regBits]

@[simp] theorem rs2Field_encodeR (funct7 : BitVec 7) (rs2 rs1 : RegIdx) (funct3 : BitVec 3) (rd : RegIdx) (op : BitVec 7) :
    rs2Field (encodeR funct7 rs2 rs1 funct3 rd op) = rs2 := by
  have h : (encodeR funct7 rs2 rs1 funct3 rd op).extractLsb' 20 5 = regBits rs2 := by
    refine extract_eq_of_bits fun i hi => ?_
    simp only [encodeR, BitVec.getLsbD_append]
    interval_cases i <;> simp
  rw [rs2Field, h, toFin_regBits]

@[simp] theorem opcodeField_encodeI (imm : BitVec 12) (rs1 : RegIdx) (funct3 : BitVec 3) (rd : RegIdx) (op : BitVec 7) :
    opcodeField (encodeI imm rs1 funct3 rd op) = op := by
  refine extract_eq_of_bits fun i hi => ?_
  simp only [encodeI, BitVec.getLsbD_append]
  interval_cases i <;> simp

@[simp] theorem funct3Field_encodeI (imm : BitVec 12) (rs1 : RegIdx) (funct3 : BitVec 3) (rd : RegIdx) (op : BitVec 7) :
    funct3Field (encodeI imm rs1 funct3 rd op) = funct3 := by
  refine extract_eq_of_bits fun i hi => ?_
  simp only [encodeI, BitVec.getLsbD_append]
  interval_cases i <;> simp

@[simp] theorem rdField_encodeI (imm : BitVec 12) (rs1 : RegIdx) (funct3 : BitVec 3) (rd : RegIdx) (op : BitVec 7) :
    rdField (encodeI imm rs1 funct3 rd op) = rd := by
  have h : (encodeI imm rs1 funct3 rd op).extractLsb' 7 5 = regBits rd := by
    refine extract_eq_of_bits fun i hi => ?_
    simp only [encodeI, BitVec.getLsbD_append]
    interval_cases i <;> simp
  rw [rdField, h, toFin_regBits]

@[simp] theorem rs1Field_encodeI (imm : BitVec 12) (rs1 : RegIdx) (funct3 : BitVec 3) (rd : RegIdx) (op : BitVec 7) :
    rs1Field (encodeI imm rs1 funct3 rd op) = rs1 := by
  have h : (encodeI imm rs1 funct3 rd op).extractLsb' 15 5 = regBits rs1 := by
    refine extract_eq_of_bits fun i hi => ?_
    simp only [encodeI, BitVec.getLsbD_append]
    interval_cases i <;> simp
  rw [rs1Field, h, toFin_regBits]

@[simp] theorem immIField_encodeI (imm : BitVec 12) (rs1 : RegIdx) (funct3 : BitVec 3) (rd : RegIdx) (op : BitVec 7) :
    immIField (encodeI imm rs1 funct3 rd op) = imm := by
  refine extract_eq_of_bits fun i hi => ?_
  simp only [encodeI, BitVec.getLsbD_append]
  interval_cases i <;> simp

@[simp] theorem opcodeField_encodeShift (funct7 : BitVec 7) (shamt : BitVec 5) (rs1 : RegIdx) (funct3 : BitVec 3) (rd : RegIdx) (op : BitVec 7) :
    opcodeField (encodeShift funct7 shamt rs1 funct3 rd op) = op := by
  refine extract_eq_of_bits fun i hi => ?_
  simp only [encodeShift, BitVec.getLsbD_append]
  interval_cases i <;> simp

@[simp] theorem funct3Field_encodeShift (funct7 : BitVec 7) (shamt : BitVec 5) (rs1 : RegIdx) (funct3 : BitVec 3) (rd : RegIdx) (op : BitVec 7) :
    funct3Field (encodeShift funct7 shamt rs1 funct3 rd op) = funct3 := by
  refine extract_eq_of_bits fun i hi => ?_
  simp only [encodeShift, BitVec.getLsbD_append]
  interval_cases i <;> simp

@[simp] theorem funct7Field_encodeShift (funct7 : BitVec 7) (shamt : BitVec 5) (rs1 : RegIdx) (funct3 : BitVec 3) (rd : RegIdx) (op : BitVec 7) :
    funct7Field (encodeShift funct7 shamt rs1 funct3 rd op) = funct7 := by
  refine extract_eq_of_bits fun i hi => ?_
  simp only [encodeShift, BitVec.getLsbD_append]
  interval_cases i <;> simp

@[simp] theorem rdField_encodeShift (funct7 : BitVec 7) (shamt : BitVec 5) (rs1 : RegIdx) (funct3 : BitVec 3) (rd : RegIdx) (op : BitVec 7) :
    rdField (encodeShift funct7 shamt rs1 funct3 rd op) = rd := by
  have h : (encodeShift funct7 shamt rs1 funct3 rd op).extractLsb' 7 5 = regBits rd := by
    refine extract_eq_of_bits fun i hi => ?_
    simp only [encodeShift, BitVec.getLsbD_append]
    interval_cases i <;> simp
  rw [rdField, h, toFin_regBits]

@[simp] theorem rs1Field_encodeShift (funct7 : BitVec 7) (shamt : BitVec 5) (rs1 : RegIdx) (funct3 : BitVec 3) (rd : RegIdx) (op : BitVec 7) :
    rs1Field (encodeShift funct7 shamt rs1 funct3 rd op) = rs1 := by
  have h : (encodeShift funct7 shamt rs1 funct3 rd op).extractLsb' 15 5 = regBits rs1 := by
    refine extract_eq_of_bits fun i hi => ?_
    simp only [encodeShift, BitVec.getLsbD_append]
    interval_cases i <;> simp
  rw [rs1Field, h, toFin_regBits]

@[simp] theorem shamtField_encodeShift (funct7 : BitVec 7) (shamt : BitVec 5) (rs1 : RegIdx) (funct3 : BitVec 3) (rd : RegIdx) (op : BitVec 7) :
    shamtField (encodeShift funct7 shamt rs1 funct3 rd op) = shamt := by
  refine extract_eq_of_bits fun i hi => ?_
  simp only [encodeShift, BitVec.getLsbD_append]
  interval_cases i <;> simp

@[simp] theorem opcodeField_encodeS (imm : BitVec 12) (rs2 rs1 : RegIdx) (funct3 : BitVec 3) (op : BitVec 7) :
    opcodeField (encodeS imm rs2 rs1 funct3 op) = op := by
  refine extract_eq_of_bits fun i hi => ?_
  simp only [encodeS, BitVec.getLsbD_append]
  interval_cases i <;> simp

@[simp] theorem funct3Field_encodeS (imm : BitVec 12) (rs2 rs1 : RegIdx) (funct3 : BitVec 3) (op : BitVec 7) :
    funct3Field (encodeS imm rs2 rs1 funct3 op) = funct3 := by
  refine extract_eq_of_bits fun i hi => ?_
  simp only [encodeS, BitVec.getLsbD_append]
  interval_cases i <;> simp

@[simp] theorem rs1Field_encodeS (imm : BitVec 12) (rs2 rs1 : RegIdx) (funct3 : BitVec 3) (op : BitVec 7) :
    rs1Field (encodeS imm rs2 rs1 funct3 op) = rs1 := by
  have h : (encodeS imm rs2 rs1 funct3 op).extractLsb' 15 5 = regBits rs1 := by
    refine extract_eq_of_bits fun i hi => ?_
    simp only [encodeS, BitVec.getLsbD_append]
    interval_cases i <;> simp
  rw [rs1Field, h, toFin_regBits]

@[simp] theorem rs2Field_encodeS (imm : BitVec 12) (rs2 rs1 : RegIdx) (funct3 : BitVec 3) (op : BitVec 7) :
    rs2Field (encodeS imm rs2 rs1 funct3 op) = rs2 := by
  have h : (encodeS imm rs2 rs1 funct3 op).extractLsb' 20 5 = regBits rs2 := by
    refine extract_eq_of_bits fun i hi => ?_
    simp only [encodeS, BitVec.getLsbD_append]
    interval_cases i <;> simp
  rw [rs2Field, h, toFin_regBits]

@[simp] theorem immSField_encodeS (imm : BitVec 12) (rs2 rs1 : RegIdx) (funct3 : BitVec 3) (op : BitVec 7) :
    immSField (encodeS imm rs2 rs1 funct3 op) = imm := by
  apply BitVec.eq_of_getLsbD_eq
  intro i hi
  simp only [immSField, encodeS, BitVec.getLsbD_append, BitVec.getLsbD_extractLsb']
  interval_cases i <;> simp

@[simp] theorem opcodeField_encodeB (offset : BitVec 13) (rs2 rs1 : RegIdx) (funct3 : BitVec 3) (op : BitVec 7) :
    opcodeField (encodeB offset rs2 rs1 funct3 op) = op := by
  refine extract_eq_of_bits fun i hi => ?_
  simp only [encodeB, BitVec.getLsbD_append]
  interval_cases i <;> simp

@[simp] theorem funct3Field_encodeB (offset : BitVec 13) (rs2 rs1 : RegIdx) (funct3 : BitVec 3) (op : BitVec 7) :
    funct3Field (encodeB offset rs2 rs1 funct3 op) = funct3 := by
  refine extract_eq_of_bits fun i hi => ?_
  simp only [encodeB, BitVec.getLsbD_append]
  interval_cases i <;> simp

@[simp] theorem rs1Field_encodeB (offset : BitVec 13) (rs2 rs1 : RegIdx) (funct3 : BitVec 3) (op : BitVec 7) :
    rs1Field (encodeB offset rs2 rs1 funct3 op) = rs1 := by
  have h : (encodeB offset rs2 rs1 funct3 op).extractLsb' 15 5 = regBits rs1 := by
    refine extract_eq_of_bits fun i hi => ?_
    simp only [encodeB, BitVec.getLsbD_append]
    interval_cases i <;> simp
  rw [rs1Field, h, toFin_regBits]

@[simp] theorem rs2Field_encodeB (offset : BitVec 13) (rs2 rs1 : RegIdx) (funct3 : BitVec 3) (op : BitVec 7) :
    rs2Field (encodeB offset rs2 rs1 funct3 op) = rs2 := by
  have h : (encodeB offset rs2 rs1 funct3 op).extractLsb' 20 5 = regBits rs2 := by
    refine extract_eq_of_bits fun i hi => ?_
    simp only [encodeB, BitVec.getLsbD_append]
    interval_cases i <;> simp
  rw [rs2Field, h, toFin_regBits]

@[simp] theorem opcodeField_encodeU (imm20 : BitVec 20) (rd : RegIdx) (op : BitVec 7) :
    opcodeField (encodeU imm20 rd op) = op := by
  refine extract_eq_of_bits fun i hi => ?_
  simp only [encodeU, BitVec.getLsbD_append]
  interval_cases i <;> simp

@[simp] theorem rdField_encodeU (imm20 : BitVec 20) (rd : RegIdx) (op : BitVec 7) :
    rdField (encodeU imm20 rd op) = rd := by
  have h : (encodeU imm20 rd op).extractLsb' 7 5 = regBits rd := by
    refine extract_eq_of_bits fun i hi => ?_
    simp only [encodeU, BitVec.getLsbD_append]
    interval_cases i <;> simp
  rw [rdField, h, toFin_regBits]

@[simp] theorem immUField_encodeU (imm20 : BitVec 20) (rd : RegIdx) (op : BitVec 7) :
    immUField (encodeU imm20 rd op) = imm20 := by
  refine extract_eq_of_bits fun i hi => ?_
  simp only [encodeU, BitVec.getLsbD_append]
  interval_cases i <;> simp

@[simp] theorem opcodeField_encodeJ (offset : BitVec 21) (rd : RegIdx) (op : BitVec 7) :
    opcodeField (encodeJ offset rd op) = op := by
  refine extract_eq_of_bits fun i hi => ?_
  simp only [encodeJ, BitVec.getLsbD_append]
  interval_cases i <;> simp

@[simp] theorem rdField_encodeJ (offset : BitVec 21) (rd : RegIdx) (op : BitVec 7) :
    rdField (encodeJ offset rd op) = rd := by
  have h : (encodeJ offset rd op).extractLsb' 7 5 = regBits rd := by
    refine extract_eq_of_bits fun i hi => ?_
    simp only [encodeJ, BitVec.getLsbD_append]
    interval_cases i <;> simp
  rw [rdField, h, toFin_regBits]

@[simp] theorem opcodeField_encodeHalt (upper : BitVec 25) (op : BitVec 7) :
    opcodeField (encodeHalt upper op) = op := by
  refine extract_eq_of_bits fun i hi => ?_
  simp only [encodeHalt, BitVec.getLsbD_append]
  interval_cases i <;> simp

@[simp] theorem upperField_encodeHalt (upper : BitVec 25) (op : BitVec 7) :
    upperField (encodeHalt upper op) = upper := by
  refine extract_eq_of_bits fun i hi => ?_
  simp only [encodeHalt, BitVec.getLsbD_append]
  interval_cases i <;> simp

/-- A branch offset reads back when its bit 0 is 0 (R110). -/
theorem immBField_encodeB (offset : BitVec 13) (rs2 rs1 : RegIdx) (funct3 : BitVec 3) (op : BitVec 7)
    (h : offset.getLsbD 0 = false) : immBField (encodeB offset rs2 rs1 funct3 op) = offset := by
  apply BitVec.eq_of_getLsbD_eq
  intro i hi
  simp only [immBField, encodeB, BitVec.getLsbD_append, BitVec.getLsbD_extractLsb']
  have h0 : offset[0] = false := by simpa using h
  interval_cases i <;> simp [h0]

/-- A jump offset reads back when its bit 0 is 0 (R112). -/
theorem immJField_encodeJ (offset : BitVec 21) (rd : RegIdx) (op : BitVec 7) (h : offset.getLsbD 0 = false) :
    immJField (encodeJ offset rd op) = offset := by
  apply BitVec.eq_of_getLsbD_eq
  intro i hi
  simp only [immJField, encodeJ, BitVec.getLsbD_append, BitVec.getLsbD_extractLsb']
  have h0 : offset[0] = false := by simpa using h
  interval_cases i <;> simp [h0]

/-! ## A word put together again from its fields -/

@[simp] theorem regBits_rdField (w : Word) : regBits (rdField w) = w.extractLsb' 7 5 := rfl
@[simp] theorem regBits_rs1Field (w : Word) : regBits (rs1Field w) = w.extractLsb' 15 5 := rfl
@[simp] theorem regBits_rs2Field (w : Word) : regBits (rs2Field w) = w.extractLsb' 20 5 := rfl

theorem encodeR_fields (w : Word) :
    encodeR (funct7Field w) (rs2Field w) (rs1Field w) (funct3Field w) (rdField w) (opcodeField w) = w := by
  apply BitVec.eq_of_getLsbD_eq
  intro i hi
  simp only [encodeR, funct7Field, funct3Field, opcodeField, regBits_rdField, regBits_rs1Field, regBits_rs2Field, BitVec.getLsbD_append,
    BitVec.getLsbD_extractLsb']
  interval_cases i <;> simp

theorem encodeI_fields (w : Word) :
    encodeI (immIField w) (rs1Field w) (funct3Field w) (rdField w) (opcodeField w) = w := by
  apply BitVec.eq_of_getLsbD_eq
  intro i hi
  simp only [encodeI, immIField, funct3Field, opcodeField, regBits_rdField, regBits_rs1Field, BitVec.getLsbD_append,
    BitVec.getLsbD_extractLsb']
  interval_cases i <;> simp

theorem encodeShift_fields (w : Word) :
    encodeShift (funct7Field w) (shamtField w) (rs1Field w) (funct3Field w) (rdField w) (opcodeField w) = w := by
  apply BitVec.eq_of_getLsbD_eq
  intro i hi
  simp only [encodeShift, funct7Field, shamtField, funct3Field, opcodeField, regBits_rdField, regBits_rs1Field, BitVec.getLsbD_append,
    BitVec.getLsbD_extractLsb']
  interval_cases i <;> simp

theorem encodeS_fields (w : Word) :
    encodeS (immSField w) (rs2Field w) (rs1Field w) (funct3Field w) (opcodeField w) = w := by
  apply BitVec.eq_of_getLsbD_eq
  intro i hi
  simp only [encodeS, immSField, funct3Field, opcodeField, regBits_rs1Field, regBits_rs2Field, BitVec.getLsbD_append,
    BitVec.getLsbD_extractLsb']
  interval_cases i <;> simp

theorem encodeB_fields (w : Word) :
    encodeB (immBField w) (rs2Field w) (rs1Field w) (funct3Field w) (opcodeField w) = w := by
  apply BitVec.eq_of_getLsbD_eq
  intro i hi
  simp only [encodeB, immBField, funct3Field, opcodeField, regBits_rs1Field, regBits_rs2Field, BitVec.getLsbD_append,
    BitVec.getLsbD_extractLsb']
  interval_cases i <;> simp

theorem encodeU_fields (w : Word) :
    encodeU (immUField w) (rdField w) (opcodeField w) = w := by
  apply BitVec.eq_of_getLsbD_eq
  intro i hi
  simp only [encodeU, immUField, opcodeField, regBits_rdField, BitVec.getLsbD_append,
    BitVec.getLsbD_extractLsb']
  interval_cases i <;> simp

theorem encodeJ_fields (w : Word) :
    encodeJ (immJField w) (rdField w) (opcodeField w) = w := by
  apply BitVec.eq_of_getLsbD_eq
  intro i hi
  simp only [encodeJ, immJField, opcodeField, regBits_rdField, BitVec.getLsbD_append,
    BitVec.getLsbD_extractLsb']
  interval_cases i <;> simp

theorem encodeHalt_fields (w : Word) :
    encodeHalt (upperField w) (opcodeField w) = w := by
  apply BitVec.eq_of_getLsbD_eq
  intro i hi
  simp only [encodeHalt, upperField, opcodeField, BitVec.getLsbD_append,
    BitVec.getLsbD_extractLsb']
  interval_cases i <;> simp

/-- The offset of a branch word is even (R110). -/
@[simp] theorem immBField_even (w : Word) : (immBField w).getLsbD 0 = false := by
  rw [immBField, BitVec.getLsbD_append]; rfl

/-- The offset of a jump word is even (R112). -/
@[simp] theorem immJField_even (w : Word) : (immJField w).getLsbD 0 = false := by
  rw [immJField, BitVec.getLsbD_append]; rfl

/-- The two fields of a composite key (R119). -/
theorem fields_of_keyField {w : Word} {k : BitVec 10} (h : keyField w = k) :
    funct7Field w = k.extractLsb' 3 7 ∧ funct3Field w = k.extractLsb' 0 3 := by
  subst h
  refine ⟨?_, ?_⟩ <;> apply BitVec.eq_of_getLsbD_eq <;> intro i hi <;>
    simp only [keyField, BitVec.getLsbD_append, BitVec.getLsbD_extractLsb'] <;> interval_cases i <;> simp

end Sys2Proof
end

