-- ==== Sys2Proof/Laws/PerInstr.lean ====
section
/-! SUPPORT. The per-instruction family TableRow: the word of an instruction carries the match value of its row of
spec/opcode_table.json under the row's mask. -/

namespace Sys2Proof.Laws

/-- The mask of an instruction's row (spec/opcode_table.json). -/
def tableMask : Instr → Word
  | .lui _ _ => 0x0000007F#32
  | .jal _ _ => 0x0000007F#32
  | .jalr _ _ _ => 0x0000707F#32
  | .beq _ _ _ => 0x0000707F#32
  | .bne _ _ _ => 0x0000707F#32
  | .blt _ _ _ => 0x0000707F#32
  | .bge _ _ _ => 0x0000707F#32
  | .bltu _ _ _ => 0x0000707F#32
  | .bgeu _ _ _ => 0x0000707F#32
  | .lb _ _ _ => 0x0000707F#32
  | .lh _ _ _ => 0x0000707F#32
  | .lw _ _ _ => 0x0000707F#32
  | .lbu _ _ _ => 0x0000707F#32
  | .lhu _ _ _ => 0x0000707F#32
  | .sb _ _ _ => 0x0000707F#32
  | .sh _ _ _ => 0x0000707F#32
  | .sw _ _ _ => 0x0000707F#32
  | .addi _ _ _ => 0x0000707F#32
  | .slti _ _ _ => 0x0000707F#32
  | .sltiu _ _ _ => 0x0000707F#32
  | .xori _ _ _ => 0x0000707F#32
  | .ori _ _ _ => 0x0000707F#32
  | .andi _ _ _ => 0x0000707F#32
  | .slli _ _ _ => 0xFE00707F#32
  | .srli _ _ _ => 0xFE00707F#32
  | .srai _ _ _ => 0xFE00707F#32
  | .add _ _ _ => 0xFE00707F#32
  | .sub _ _ _ => 0xFE00707F#32
  | .sll _ _ _ => 0xFE00707F#32
  | .slt _ _ _ => 0xFE00707F#32
  | .sltu _ _ _ => 0xFE00707F#32
  | .xor _ _ _ => 0xFE00707F#32
  | .srl _ _ _ => 0xFE00707F#32
  | .sra _ _ _ => 0xFE00707F#32
  | .or _ _ _ => 0xFE00707F#32
  | .and _ _ _ => 0xFE00707F#32
  | .mul _ _ _ => 0xFE00707F#32
  | .mulh _ _ _ => 0xFE00707F#32
  | .mulhsu _ _ _ => 0xFE00707F#32
  | .mulhu _ _ _ => 0xFE00707F#32
  | .div _ _ _ => 0xFE00707F#32
  | .divu _ _ _ => 0xFE00707F#32
  | .rem _ _ _ => 0xFE00707F#32
  | .remu _ _ _ => 0xFE00707F#32
  | .ecall => 0xFFFFFFFF#32
  | .ebreak => 0xFFFFFFFF#32
  | .systemOther _ => 0x0000007F#32
  | .zeroHalt _ => 0x0000007F#32

/-- The match value of an instruction's row (spec/opcode_table.json). -/
def tableMatch : Instr → Word
  | .lui _ _ => 0x00000037#32
  | .jal _ _ => 0x0000006F#32
  | .jalr _ _ _ => 0x00000067#32
  | .beq _ _ _ => 0x00000063#32
  | .bne _ _ _ => 0x00001063#32
  | .blt _ _ _ => 0x00004063#32
  | .bge _ _ _ => 0x00005063#32
  | .bltu _ _ _ => 0x00006063#32
  | .bgeu _ _ _ => 0x00007063#32
  | .lb _ _ _ => 0x00000003#32
  | .lh _ _ _ => 0x00001003#32
  | .lw _ _ _ => 0x00002003#32
  | .lbu _ _ _ => 0x00004003#32
  | .lhu _ _ _ => 0x00005003#32
  | .sb _ _ _ => 0x00000023#32
  | .sh _ _ _ => 0x00001023#32
  | .sw _ _ _ => 0x00002023#32
  | .addi _ _ _ => 0x00000013#32
  | .slti _ _ _ => 0x00002013#32
  | .sltiu _ _ _ => 0x00003013#32
  | .xori _ _ _ => 0x00004013#32
  | .ori _ _ _ => 0x00006013#32
  | .andi _ _ _ => 0x00007013#32
  | .slli _ _ _ => 0x00001013#32
  | .srli _ _ _ => 0x00005013#32
  | .srai _ _ _ => 0x40005013#32
  | .add _ _ _ => 0x00000033#32
  | .sub _ _ _ => 0x40000033#32
  | .sll _ _ _ => 0x00001033#32
  | .slt _ _ _ => 0x00002033#32
  | .sltu _ _ _ => 0x00003033#32
  | .xor _ _ _ => 0x00004033#32
  | .srl _ _ _ => 0x00005033#32
  | .sra _ _ _ => 0x40005033#32
  | .or _ _ _ => 0x00006033#32
  | .and _ _ _ => 0x00007033#32
  | .mul _ _ _ => 0x02000033#32
  | .mulh _ _ _ => 0x02001033#32
  | .mulhsu _ _ _ => 0x02002033#32
  | .mulhu _ _ _ => 0x02003033#32
  | .div _ _ _ => 0x02004033#32
  | .divu _ _ _ => 0x02005033#32
  | .rem _ _ _ => 0x02006033#32
  | .remu _ _ _ => 0x02007033#32
  | .ecall => 0x00000073#32
  | .ebreak => 0x00100073#32
  | .systemOther _ => 0x00000073#32
  | .zeroHalt _ => 0x00000000#32

theorem mask_encodeR (funct7 : BitVec 7) (rs2 rs1 : RegIdx) (funct3 : BitVec 3) (rd : RegIdx) (op : BitVec 7) :
    encodeR funct7 rs2 rs1 funct3 rd op &&& 0xFE00707F#32 = funct7 ++ 0#10 ++ funct3 ++ 0#5 ++ op := by
  apply BitVec.eq_of_getLsbD_eq
  intro i hi
  simp only [encodeR, BitVec.getLsbD_and, BitVec.getLsbD_append]
  interval_cases i <;> simp

theorem mask_encodeI (imm : BitVec 12) (rs1 : RegIdx) (funct3 : BitVec 3) (rd : RegIdx) (op : BitVec 7) :
    encodeI imm rs1 funct3 rd op &&& 0x0000707F#32 = 0#17 ++ funct3 ++ 0#5 ++ op := by
  apply BitVec.eq_of_getLsbD_eq
  intro i hi
  simp only [encodeI, BitVec.getLsbD_and, BitVec.getLsbD_append]
  interval_cases i <;> simp

theorem mask_encodeShift (funct7 : BitVec 7) (shamt : BitVec 5) (rs1 : RegIdx) (funct3 : BitVec 3) (rd : RegIdx) (op : BitVec 7) :
    encodeShift funct7 shamt rs1 funct3 rd op &&& 0xFE00707F#32 = funct7 ++ 0#10 ++ funct3 ++ 0#5 ++ op := by
  apply BitVec.eq_of_getLsbD_eq
  intro i hi
  simp only [encodeShift, BitVec.getLsbD_and, BitVec.getLsbD_append]
  interval_cases i <;> simp

theorem mask_encodeS (imm : BitVec 12) (rs2 rs1 : RegIdx) (funct3 : BitVec 3) (op : BitVec 7) :
    encodeS imm rs2 rs1 funct3 op &&& 0x0000707F#32 = 0#17 ++ funct3 ++ 0#5 ++ op := by
  apply BitVec.eq_of_getLsbD_eq
  intro i hi
  simp only [encodeS, BitVec.getLsbD_and, BitVec.getLsbD_append]
  interval_cases i <;> simp

theorem mask_encodeB (offset : BitVec 13) (rs2 rs1 : RegIdx) (funct3 : BitVec 3) (op : BitVec 7) :
    encodeB offset rs2 rs1 funct3 op &&& 0x0000707F#32 = 0#17 ++ funct3 ++ 0#5 ++ op := by
  apply BitVec.eq_of_getLsbD_eq
  intro i hi
  simp only [encodeB, BitVec.getLsbD_and, BitVec.getLsbD_append]
  interval_cases i <;> simp

theorem mask_encodeU (imm20 : BitVec 20) (rd : RegIdx) (op : BitVec 7) :
    encodeU imm20 rd op &&& 0x0000007F#32 = 0#25 ++ op := by
  apply BitVec.eq_of_getLsbD_eq
  intro i hi
  simp only [encodeU, BitVec.getLsbD_and, BitVec.getLsbD_append]
  interval_cases i <;> simp

theorem mask_encodeJ (offset : BitVec 21) (rd : RegIdx) (op : BitVec 7) :
    encodeJ offset rd op &&& 0x0000007F#32 = 0#25 ++ op := by
  apply BitVec.eq_of_getLsbD_eq
  intro i hi
  simp only [encodeJ, BitVec.getLsbD_and, BitVec.getLsbD_append]
  interval_cases i <;> simp

theorem mask_encodeHalt (upper : BitVec 25) (op : BitVec 7) :
    encodeHalt upper op &&& 0x0000007F#32 = 0#25 ++ op := by
  apply BitVec.eq_of_getLsbD_eq
  intro i hi
  simp only [encodeHalt, BitVec.getLsbD_and, BitVec.getLsbD_append]
  interval_cases i <;> simp

/-- The word of `i` matches the row of `i`. -/
def TableRow.Statement (i : Instr) : Prop := encode i &&& tableMask i = tableMatch i

theorem TableRow.lui (rd : RegIdx) (imm20 : BitVec 20) : TableRow.Statement (.lui rd imm20) :=
  (mask_encodeU _ _ _).trans (by rfl)
theorem TableRow.jal (rd : RegIdx) (offset : BitVec 21) : TableRow.Statement (.jal rd offset) :=
  (mask_encodeJ _ _ _).trans (by rfl)
theorem TableRow.jalr (rd : RegIdx) (rs1 : RegIdx) (imm : BitVec 12) : TableRow.Statement (.jalr rd rs1 imm) :=
  (mask_encodeI _ _ _ _ _).trans (by rfl)
theorem TableRow.beq (rs1 : RegIdx) (rs2 : RegIdx) (offset : BitVec 13) : TableRow.Statement (.beq rs1 rs2 offset) :=
  (mask_encodeB _ _ _ _ _).trans (by rfl)
theorem TableRow.bne (rs1 : RegIdx) (rs2 : RegIdx) (offset : BitVec 13) : TableRow.Statement (.bne rs1 rs2 offset) :=
  (mask_encodeB _ _ _ _ _).trans (by rfl)
theorem TableRow.blt (rs1 : RegIdx) (rs2 : RegIdx) (offset : BitVec 13) : TableRow.Statement (.blt rs1 rs2 offset) :=
  (mask_encodeB _ _ _ _ _).trans (by rfl)
theorem TableRow.bge (rs1 : RegIdx) (rs2 : RegIdx) (offset : BitVec 13) : TableRow.Statement (.bge rs1 rs2 offset) :=
  (mask_encodeB _ _ _ _ _).trans (by rfl)
theorem TableRow.bltu (rs1 : RegIdx) (rs2 : RegIdx) (offset : BitVec 13) : TableRow.Statement (.bltu rs1 rs2 offset) :=
  (mask_encodeB _ _ _ _ _).trans (by rfl)
theorem TableRow.bgeu (rs1 : RegIdx) (rs2 : RegIdx) (offset : BitVec 13) : TableRow.Statement (.bgeu rs1 rs2 offset) :=
  (mask_encodeB _ _ _ _ _).trans (by rfl)
theorem TableRow.lb (rd : RegIdx) (rs1 : RegIdx) (imm : BitVec 12) : TableRow.Statement (.lb rd rs1 imm) :=
  (mask_encodeI _ _ _ _ _).trans (by rfl)
theorem TableRow.lh (rd : RegIdx) (rs1 : RegIdx) (imm : BitVec 12) : TableRow.Statement (.lh rd rs1 imm) :=
  (mask_encodeI _ _ _ _ _).trans (by rfl)
theorem TableRow.lw (rd : RegIdx) (rs1 : RegIdx) (imm : BitVec 12) : TableRow.Statement (.lw rd rs1 imm) :=
  (mask_encodeI _ _ _ _ _).trans (by rfl)
theorem TableRow.lbu (rd : RegIdx) (rs1 : RegIdx) (imm : BitVec 12) : TableRow.Statement (.lbu rd rs1 imm) :=
  (mask_encodeI _ _ _ _ _).trans (by rfl)
theorem TableRow.lhu (rd : RegIdx) (rs1 : RegIdx) (imm : BitVec 12) : TableRow.Statement (.lhu rd rs1 imm) :=
  (mask_encodeI _ _ _ _ _).trans (by rfl)
theorem TableRow.sb (rs2 : RegIdx) (rs1 : RegIdx) (imm : BitVec 12) : TableRow.Statement (.sb rs2 rs1 imm) :=
  (mask_encodeS _ _ _ _ _).trans (by rfl)
theorem TableRow.sh (rs2 : RegIdx) (rs1 : RegIdx) (imm : BitVec 12) : TableRow.Statement (.sh rs2 rs1 imm) :=
  (mask_encodeS _ _ _ _ _).trans (by rfl)
theorem TableRow.sw (rs2 : RegIdx) (rs1 : RegIdx) (imm : BitVec 12) : TableRow.Statement (.sw rs2 rs1 imm) :=
  (mask_encodeS _ _ _ _ _).trans (by rfl)
theorem TableRow.addi (rd : RegIdx) (rs1 : RegIdx) (imm : BitVec 12) : TableRow.Statement (.addi rd rs1 imm) :=
  (mask_encodeI _ _ _ _ _).trans (by rfl)
theorem TableRow.slti (rd : RegIdx) (rs1 : RegIdx) (imm : BitVec 12) : TableRow.Statement (.slti rd rs1 imm) :=
  (mask_encodeI _ _ _ _ _).trans (by rfl)
theorem TableRow.sltiu (rd : RegIdx) (rs1 : RegIdx) (imm : BitVec 12) : TableRow.Statement (.sltiu rd rs1 imm) :=
  (mask_encodeI _ _ _ _ _).trans (by rfl)
theorem TableRow.xori (rd : RegIdx) (rs1 : RegIdx) (imm : BitVec 12) : TableRow.Statement (.xori rd rs1 imm) :=
  (mask_encodeI _ _ _ _ _).trans (by rfl)
theorem TableRow.ori (rd : RegIdx) (rs1 : RegIdx) (imm : BitVec 12) : TableRow.Statement (.ori rd rs1 imm) :=
  (mask_encodeI _ _ _ _ _).trans (by rfl)
theorem TableRow.andi (rd : RegIdx) (rs1 : RegIdx) (imm : BitVec 12) : TableRow.Statement (.andi rd rs1 imm) :=
  (mask_encodeI _ _ _ _ _).trans (by rfl)
theorem TableRow.slli (rd : RegIdx) (rs1 : RegIdx) (shamt : BitVec 5) : TableRow.Statement (.slli rd rs1 shamt) :=
  (mask_encodeShift _ _ _ _ _ _).trans (by rfl)
theorem TableRow.srli (rd : RegIdx) (rs1 : RegIdx) (shamt : BitVec 5) : TableRow.Statement (.srli rd rs1 shamt) :=
  (mask_encodeShift _ _ _ _ _ _).trans (by rfl)
theorem TableRow.srai (rd : RegIdx) (rs1 : RegIdx) (shamt : BitVec 5) : TableRow.Statement (.srai rd rs1 shamt) :=
  (mask_encodeShift _ _ _ _ _ _).trans (by rfl)
theorem TableRow.add (rd : RegIdx) (rs1 : RegIdx) (rs2 : RegIdx) : TableRow.Statement (.add rd rs1 rs2) :=
  (mask_encodeR _ _ _ _ _ _).trans (by rfl)
theorem TableRow.sub (rd : RegIdx) (rs1 : RegIdx) (rs2 : RegIdx) : TableRow.Statement (.sub rd rs1 rs2) :=
  (mask_encodeR _ _ _ _ _ _).trans (by rfl)
theorem TableRow.sll (rd : RegIdx) (rs1 : RegIdx) (rs2 : RegIdx) : TableRow.Statement (.sll rd rs1 rs2) :=
  (mask_encodeR _ _ _ _ _ _).trans (by rfl)
theorem TableRow.slt (rd : RegIdx) (rs1 : RegIdx) (rs2 : RegIdx) : TableRow.Statement (.slt rd rs1 rs2) :=
  (mask_encodeR _ _ _ _ _ _).trans (by rfl)
theorem TableRow.sltu (rd : RegIdx) (rs1 : RegIdx) (rs2 : RegIdx) : TableRow.Statement (.sltu rd rs1 rs2) :=
  (mask_encodeR _ _ _ _ _ _).trans (by rfl)
theorem TableRow.xor (rd : RegIdx) (rs1 : RegIdx) (rs2 : RegIdx) : TableRow.Statement (.xor rd rs1 rs2) :=
  (mask_encodeR _ _ _ _ _ _).trans (by rfl)
theorem TableRow.srl (rd : RegIdx) (rs1 : RegIdx) (rs2 : RegIdx) : TableRow.Statement (.srl rd rs1 rs2) :=
  (mask_encodeR _ _ _ _ _ _).trans (by rfl)
theorem TableRow.sra (rd : RegIdx) (rs1 : RegIdx) (rs2 : RegIdx) : TableRow.Statement (.sra rd rs1 rs2) :=
  (mask_encodeR _ _ _ _ _ _).trans (by rfl)
theorem TableRow.or (rd : RegIdx) (rs1 : RegIdx) (rs2 : RegIdx) : TableRow.Statement (.or rd rs1 rs2) :=
  (mask_encodeR _ _ _ _ _ _).trans (by rfl)
theorem TableRow.and (rd : RegIdx) (rs1 : RegIdx) (rs2 : RegIdx) : TableRow.Statement (.and rd rs1 rs2) :=
  (mask_encodeR _ _ _ _ _ _).trans (by rfl)
theorem TableRow.mul (rd : RegIdx) (rs1 : RegIdx) (rs2 : RegIdx) : TableRow.Statement (.mul rd rs1 rs2) :=
  (mask_encodeR _ _ _ _ _ _).trans (by rfl)
theorem TableRow.mulh (rd : RegIdx) (rs1 : RegIdx) (rs2 : RegIdx) : TableRow.Statement (.mulh rd rs1 rs2) :=
  (mask_encodeR _ _ _ _ _ _).trans (by rfl)
theorem TableRow.mulhsu (rd : RegIdx) (rs1 : RegIdx) (rs2 : RegIdx) : TableRow.Statement (.mulhsu rd rs1 rs2) :=
  (mask_encodeR _ _ _ _ _ _).trans (by rfl)
theorem TableRow.mulhu (rd : RegIdx) (rs1 : RegIdx) (rs2 : RegIdx) : TableRow.Statement (.mulhu rd rs1 rs2) :=
  (mask_encodeR _ _ _ _ _ _).trans (by rfl)
theorem TableRow.div (rd : RegIdx) (rs1 : RegIdx) (rs2 : RegIdx) : TableRow.Statement (.div rd rs1 rs2) :=
  (mask_encodeR _ _ _ _ _ _).trans (by rfl)
theorem TableRow.divu (rd : RegIdx) (rs1 : RegIdx) (rs2 : RegIdx) : TableRow.Statement (.divu rd rs1 rs2) :=
  (mask_encodeR _ _ _ _ _ _).trans (by rfl)
theorem TableRow.rem (rd : RegIdx) (rs1 : RegIdx) (rs2 : RegIdx) : TableRow.Statement (.rem rd rs1 rs2) :=
  (mask_encodeR _ _ _ _ _ _).trans (by rfl)
theorem TableRow.remu (rd : RegIdx) (rs1 : RegIdx) (rs2 : RegIdx) : TableRow.Statement (.remu rd rs1 rs2) :=
  (mask_encodeR _ _ _ _ _ _).trans (by rfl)
theorem TableRow.ecall : TableRow.Statement .ecall :=
  by unfold TableRow.Statement; decide
theorem TableRow.ebreak : TableRow.Statement .ebreak :=
  by unfold TableRow.Statement; decide
theorem TableRow.systemOther (upper : BitVec 25) : TableRow.Statement (.systemOther upper) :=
  (mask_encodeHalt _ _).trans (by rfl)
theorem TableRow.zeroHalt (upper : BitVec 25) : TableRow.Statement (.zeroHalt upper) :=
  (mask_encodeHalt _ _).trans (by rfl)

end Sys2Proof.Laws
end

