-- ==== Sys2Proof/Tests/Slice0.lean ====
section
/-! SUPPORT. Tests: well-formedness, decoding of words written out from the spec's encodings, single steps, accessors
and host operations, all with the results of spec/95_test_vectors.md (a test's name ends in its vector's id) or worked
out by hand from the rule named; and after them a witness for every statement that has hypotheses. -/

namespace Sys2Proof.Tests

open Sys2Proof.Machine Sys2Proof.Claims

/-! ## Well-formedness: each check refuses an ill-formed term -/

theorem test_wf_jal_odd : Instr.wellFormed (.jal 1 3) = false := by decide
theorem test_wf_beq_odd : Instr.wellFormed (.beq 1 2 1) = false := by decide
theorem test_wf_bne_odd : Instr.wellFormed (.bne 1 2 1) = false := by decide
theorem test_wf_blt_odd : Instr.wellFormed (.blt 1 2 (-1)) = false := by decide
theorem test_wf_bge_odd : Instr.wellFormed (.bge 1 2 5) = false := by decide
theorem test_wf_bltu_odd : Instr.wellFormed (.bltu 1 2 7) = false := by decide
theorem test_wf_bgeu_odd : Instr.wellFormed (.bgeu 1 2 (-3)) = false := by decide
theorem test_wf_systemOther_ecall : Instr.wellFormed (.systemOther 0) = false := by decide
theorem test_wf_systemOther_ebreak : Instr.wellFormed (.systemOther 0x2000) = false := by decide
theorem test_wf_accepts : Instr.wellFormed (.jal 1 2) = true ∧ Instr.wellFormed (.beq 1 2 (-4096)) = true ∧
    Instr.wellFormed (.systemOther 1) = true := by decide

/-! ## Decoding, every constructor (words of 95_test_vectors.md sections W and D) -/

theorem test_decode_lui : decode 0x123452B7 = .instr (.lui 5 0x12345) := by decide
theorem test_decode_jal : decode 0xF01FF06F = .instr (.jal 0 (-0x100)) ∧ decode 0x008000EF = .instr (.jal 1 8) := by
  decide
theorem test_decode_jalr : decode 0xFFC300E7 = .instr (.jalr 1 6 (-4)) := by decide
theorem test_decode_branches :
    decode 0x10628463 = .instr (.beq 5 6 0x108) ∧ decode 0xFE629EE3 = .instr (.bne 5 6 (-4)) ∧
    decode 0x0062C863 = .instr (.blt 5 6 16) ∧ decode 0x0062D863 = .instr (.bge 5 6 16) ∧
    decode 0x0062E863 = .instr (.bltu 5 6 16) ∧ decode 0x0062F863 = .instr (.bgeu 5 6 16) := by decide
theorem test_decode_branch_extremes :
    decode 0x80000063 = .instr (.beq 0 0 (-4096)) ∧ decode 0x7E000FE3 = .instr (.beq 0 0 4094) := by decide
theorem test_decode_loads :
    decode 0x00330283 = .instr (.lb 5 6 3) ∧ decode 0x00131283 = .instr (.lh 5 6 1) ∧
    decode 0xFFC32283 = .instr (.lw 5 6 (-4)) ∧ decode 0x00334283 = .instr (.lbu 5 6 3) ∧
    decode 0x00235283 = .instr (.lhu 5 6 2) := by decide
theorem test_decode_stores :
    decode 0x00530423 = .instr (.sb 5 6 8) ∧ decode 0x00531423 = .instr (.sh 5 6 8) ∧
    decode 0xFE532C23 = .instr (.sw 5 6 (-8)) ∧ decode 0x0E532EA3 = .instr (.sw 5 6 0xFD) := by decide
theorem test_decode_immediate :
    decode 0x7FF30293 = .instr (.addi 5 6 2047) ∧ decode 0xFFF32293 = .instr (.slti 5 6 (-1)) ∧
    decode 0x00133293 = .instr (.sltiu 5 6 1) ∧ decode 0x7FF34293 = .instr (.xori 5 6 0x7FF) ∧
    decode 0x80036293 = .instr (.ori 5 6 (-2048)) ∧ decode 0xFF037293 = .instr (.andi 5 6 (-16)) := by decide
theorem test_decode_shift_immediate :
    decode 0x01F31293 = .instr (.slli 5 6 31) ∧ decode 0x00435293 = .instr (.srli 5 6 4) ∧
    decode 0x41F35293 = .instr (.srai 5 6 31) := by decide
theorem test_decode_register :
    decode 0x007302B3 = .instr (.add 5 6 7) ∧ decode 0x407302B3 = .instr (.sub 5 6 7) ∧
    decode 0x007312B3 = .instr (.sll 5 6 7) ∧ decode 0x007322B3 = .instr (.slt 5 6 7) ∧
    decode 0x007332B3 = .instr (.sltu 5 6 7) ∧ decode 0x007342B3 = .instr (.xor 5 6 7) ∧
    decode 0x007352B3 = .instr (.srl 5 6 7) ∧ decode 0x407352B3 = .instr (.sra 5 6 7) ∧
    decode 0x007362B3 = .instr (.or 5 6 7) ∧ decode 0x007372B3 = .instr (.and 5 6 7) := by decide
theorem test_decode_multiply :
    decode 0x027302B3 = .instr (.mul 5 6 7) ∧ decode 0x027312B3 = .instr (.mulh 5 6 7) ∧
    decode 0x027322B3 = .instr (.mulhsu 5 6 7) ∧ decode 0x027332B3 = .instr (.mulhu 5 6 7) ∧
    decode 0x027342B3 = .instr (.div 5 6 7) ∧ decode 0x027352B3 = .instr (.divu 5 6 7) ∧
    decode 0x027362B3 = .instr (.rem 5 6 7) ∧ decode 0x027372B3 = .instr (.remu 5 6 7) := by decide
theorem test_decode_halting :
    decode 0x00000073 = .instr .ecall ∧ decode 0x00100073 = .instr .ebreak ∧
    decode 0x30200073 = .instr (.systemOther 0x604000) ∧ decode 0x00000000 = .instr (.zeroHalt 0) ∧
    decode 0x00000080 = .instr (.zeroHalt 1) := by decide

/-- One word of each family written out field by field from its format (R102 to R107, R114 to R121). -/
theorem test_decode_lui_fields : decode (0b00010010001101000101#20 ++ 0b00101#5 ++ 0b0110111#7) =
    .instr (.lui 5 0x12345) := by decide
theorem test_decode_jal_fields :
    decode (0b1#1 ++ 0b1110000000#10 ++ 0b1#1 ++ 0b11111111#8 ++ 0b00000#5 ++ 0b1101111#7) =
      .instr (.jal 0 (-0x100)) := by decide
theorem test_decode_jalr_fields :
    decode (0b111111111100#12 ++ 0b00110#5 ++ 0b000#3 ++ 0b00001#5 ++ 0b1100111#7) = .instr (.jalr 1 6 (-4)) := by
  decide
theorem test_decode_bne_fields :
    decode (0b1#1 ++ 0b111111#6 ++ 0b00110#5 ++ 0b00101#5 ++ 0b001#3 ++ 0b1110#4 ++ 0b1#1 ++ 0b1100011#7) =
      .instr (.bne 5 6 (-4)) := by decide
theorem test_decode_lhu_fields :
    decode (0b000000000010#12 ++ 0b00110#5 ++ 0b101#3 ++ 0b00101#5 ++ 0b0000011#7) = .instr (.lhu 5 6 2) := by decide
theorem test_decode_sw_fields :
    decode (0b1111111#7 ++ 0b00101#5 ++ 0b00110#5 ++ 0b010#3 ++ 0b11000#5 ++ 0b0100011#7) =
      .instr (.sw 5 6 (-8)) := by decide
theorem test_decode_srai_fields :
    decode (0b0100000#7 ++ 0b11111#5 ++ 0b00110#5 ++ 0b101#3 ++ 0b00101#5 ++ 0b0010011#7) =
      .instr (.srai 5 6 31) := by decide
theorem test_decode_add_fields :
    decode (0b0000000#7 ++ 0b00111#5 ++ 0b00110#5 ++ 0b000#3 ++ 0b00101#5 ++ 0b0110011#7) = .instr (.add 5 6 7) := by
  decide
theorem test_decode_mulhsu_fields :
    decode (0b0000001#7 ++ 0b00111#5 ++ 0b00110#5 ++ 0b010#3 ++ 0b00101#5 ++ 0b0110011#7) =
      .instr (.mulhsu 5 6 7) := by decide
theorem test_decode_ebreak_fields : decode (0b000000000001#12 ++ 0b0000000000000#13 ++ 0b1110011#7) =
    .instr .ebreak := by decide

theorem test_decode_illegal_opcode_DF1_DF2_DF3_DF4_DF13 :
    decode 0x00001297 = .illegal (.illegalOpcode 0x00001297 0b0010111) ∧
    decode 0x0FF0000F = .illegal (.illegalOpcode 0x0FF0000F 0b0001111) ∧
    decode 0x1003252F = .illegal (.illegalOpcode 0x1003252F 0b0101111) ∧
    decode 0x00000001 = .illegal (.illegalOpcode 0x00000001 0b0000001) ∧
    decode 0xFFFFFFFF = .illegal (.illegalOpcode 0xFFFFFFFF 0b1111111) := by decide
theorem test_decode_illegal_funct3_DF5_to_DF8 :
    decode 0x00033283 = .illegal (.illegalFunct3 0x00033283 0b0000011 0b011) ∧
    decode 0x00533423 = .illegal (.illegalFunct3 0x00533423 0b0100011 0b011) ∧
    decode 0x00002063 = .illegal (.illegalFunct3 0x00002063 0b1100011 0b010) ∧
    decode 0x000010E7 = .illegal (.illegalFunct3 0x000010E7 0b1100111 0b001) := by decide
theorem test_decode_illegal_shift_DF9_DF10 :
    decode 0x40131293 = .illegal (.illegalShiftImm 0x40131293 0b001 0b0100000) ∧
    decode 0x02135293 = .illegal (.illegalShiftImm 0x02135293 0b101 0b0000001) := by decide
theorem test_decode_illegal_key_DF11_DF12 :
    decode 0x407312B3 = .illegal (.illegalRKey 0x407312B3 0x101) ∧
    decode 0x107302B3 = .illegal (.illegalRKey 0x107302B3 0x040) := by decide

/-- The byte order of a stored word (R68): `0x00100093` is stored as 93 00 10 00. -/
theorem test_decode_bytes_in_memory_order : decodeBytes 0x93 0x00 0x10 0x00 = .instr (.addi 1 0 1) := by decide

theorem test_decodeTableWord :
    decodeTableWord 32 0x0000007F = none ∧ decodeTableWord 32 0x00000037 = some (.lui 0 0) ∧
    decodeTableWord 32 0x40005013 = some (.srai 0 0 0) := by decide

/-! ## Single steps -/

/-- A running core in the test geometry with `pc = 0x100`, the word there, `data` at 0x200 and registers as listed. -/
def start (cfg : Config) (regs : List (RegIdx × Word)) (data w : Word) : State :=
  { regs.foldl (fun s r => s.setReg r.1 r.2) (State.construct cfg) with
    pc := 0x100
    status := .running
    mem := (Memory.writeLE [] 0x100 w .word).writeLE 0x200 data .word }

/-- The alternatives of R10, one at a time. -/
def rotating : Config := { resetConfig with sraMode := .rotate }
def linking : Config := { resetConfig with branchLink := .linkX1 }
def biased : Config := { resetConfig with subwordLoadMode := .observedBias }
def standardJalr : Config := { resetConfig with jalrMode := .standard }

def after : Host.Outcome State Fault Refusal → Option State
  | .next t => some t
  | .fault _ => none
  | .refused _ => none

def regPc (r : RegIdx) (o : Host.Outcome State Fault Refusal) : Option (Word × Word) :=
  (after o).map fun t => (t.reg r, t.pc)

def bytePc (a : Nat) (o : Host.Outcome State Fault Refusal) : Option (Byte × Word) :=
  (after o).map fun t => (t.mem.byte a, t.pc)

def statusPc (o : Host.Outcome State Fault Refusal) : Option (Status × Word) :=
  (after o).map fun t => (t.status, t.pc)

theorem test_lui_UJ1 : regPc 5 (step (start resetConfig [] 0 0x123452B7)) = some (0x12345000, 0x104) := by decide
theorem test_lui_UJ3 : regPc 0 (step (start resetConfig [] 0 0x12345037)) = some (0, 0x104) := by decide
theorem test_jal_UJ5 : regPc 0 (step (start resetConfig [] 0 0xF01FF06F)) = some (0, 0x0) := by decide
theorem test_jal_UJ7 : regPc 1 (step (start resetConfig [] 0 0x002000EF)) = some (0x00000104, 0x102) := by decide
theorem test_jalr_UJ10 :
    regPc 1 (step (start resetConfig [(1, 0x40)] 0 0x000080E7)) = some (0x00000104, 0x140) := by
  decide
theorem test_jalr_UJ13 :
    regPc 1 (step (start standardJalr [(6, 0x21)] 0 0x004300E7)) = some (0x00000104, 0x24) := by
  decide
theorem test_lb_LS1 :
    regPc 5 (step (start resetConfig [(6, 0x200)] 0x91228344 0x00330283)) = some (0xFFFFFF91, 0x104) := by
  decide
theorem test_lb_LS20 :
    regPc 5 (step (start biased [(6, 0x200)] 0x91228344 0x00030283)) = some (0xFFFFFF91, 0x104) := by
  decide
theorem test_lh_LS4 :
    regPc 5 (step (start resetConfig [(6, 0x200)] 0x91228344 0x00031283)) = some (0xFFFF8344, 0x104) := by
  decide
theorem test_lh_LS14 :
    statusPc (step (start resetConfig [(6, 0x100)] 0 0x0FF31283)) =
      some (.faulted (.memCrossPage 0x1FF .half .load), 0x100) := by
  decide
theorem test_lw_LS9 :
    regPc 5 (step (start resetConfig [(6, 0x200)] 0x91228344 0x00132283)) = some (0x00912283, 0x104) := by
  decide
theorem test_lw_LS13 :
    statusPc (step (start resetConfig [(6, 0x100)] 0 0x0FE32283)) =
      some (.faulted (.memCrossPage 0x1FE .word .load), 0x100) := by
  decide
theorem test_lbu_LS3 :
    regPc 5 (step (start resetConfig [(6, 0x200)] 0x91228344 0x00334283)) = some (0x00000091, 0x104) := by
  decide
theorem test_lhu_LS7 :
    regPc 5 (step (start resetConfig [(6, 0x200)] 0x91228344 0x00235283)) = some (0x00009122, 0x104) := by
  decide
theorem test_lhu_LS21 : regPc 5 (step (start biased [(6, 0x100)] 0 0x0FE35283)) = some (0, 0x104) := by decide
theorem test_sb_LS23 :
    bytePc 0x208 (step (start resetConfig [(5, 0x11223344), (6, 0x200)] 0 0x00530423)) = some (0x44, 0x104) := by
  decide
theorem test_sb_LS32 :
    statusPc (step (start resetConfig [(5, 0x11223344), (6, 0x1000)] 0 0x00530023)) =
      some (.faulted (.memOutOfRange 0x1000 .byte .store), 0x100) := by
  decide
theorem test_sh_LS24 :
    bytePc 0x209 (step (start resetConfig [(5, 0x11223344), (6, 0x200)] 0 0x00531423)) = some (0x33, 0x104) := by
  decide
theorem test_sh_LS31 :
    statusPc (step (start resetConfig [(5, 0x11223344), (6, 0x100)] 0 0x0E531FA3)) =
      some (.faulted (.memCrossPage 0x1FF .half .store), 0x100) := by
  decide
theorem test_sw_LS26 :
    bytePc 0x203 (step (start resetConfig [(5, 0x11223344), (6, 0x208)] 0 0xFE532C23)) = some (0x11, 0x104) := by
  decide
theorem test_sw_LS30 :
    statusPc (step (start resetConfig [(5, 0x11223344), (6, 0x100)] 0 0x0E532EA3)) =
      some (.faulted (.memCrossPage 0x1FD .word .store), 0x100) := by
  decide
theorem test_beq_BR1 :
    regPc 1 (step (start resetConfig [(5, 0x7), (6, 0x7)] 0 0x10628463)) = some (0, 0x208) := by
  decide
theorem test_beq_BR19 :
    regPc 1 (step (start linking [(5, 0x7), (6, 0x7)] 0 0x10628463)) = some (0x00000104, 0x208) := by
  decide
theorem test_bne_BR3 :
    regPc 1 (step (start resetConfig [(5, 0x1), (6, 0x2)] 0 0xFE629EE3)) = some (0, 0xfc) := by
  decide
theorem test_bne_BR4 :
    regPc 1 (step (start resetConfig [(5, 0x2), (6, 0x2)] 0 0xFE629EE3)) = some (0, 0x104) := by
  decide
theorem test_blt_BR5 :
    regPc 1 (step (start resetConfig [(5, 0xFFFFFFFF), (6, 0x0)] 0 0x0062C863)) = some (0, 0x110) := by
  decide
theorem test_blt_BR6 :
    regPc 1 (step (start resetConfig [(5, 0x0), (6, 0xFFFFFFFF)] 0 0x0062C863)) = some (0, 0x104) := by
  decide
theorem test_bge_BR8 :
    regPc 1 (step (start resetConfig [(5, 0x0), (6, 0xFFFFFFFF)] 0 0x0062D863)) = some (0, 0x110) := by
  decide
theorem test_bge_BR9 :
    regPc 1 (step (start resetConfig [(5, 0x80000000), (6, 0x7FFFFFFF)] 0 0x0062D863)) = some (0, 0x104) := by
  decide
theorem test_bltu_BR11 :
    regPc 1 (step (start resetConfig [(5, 0x0), (6, 0xFFFFFFFF)] 0 0x0062E863)) = some (0, 0x110) := by
  decide
theorem test_bltu_BR12 :
    regPc 1 (step (start resetConfig [(5, 0xFFFFFFFF), (6, 0x0)] 0 0x0062E863)) = some (0, 0x104) := by
  decide
theorem test_bgeu_BR13 :
    regPc 1 (step (start resetConfig [(5, 0xFFFFFFFF), (6, 0x0)] 0 0x0062F863)) = some (0, 0x110) := by
  decide
theorem test_bgeu_BR14 :
    regPc 1 (step (start resetConfig [(5, 0x0), (6, 0x1)] 0 0x0062F863)) = some (0, 0x104) := by
  decide
theorem test_addi_IM2 :
    regPc 5 (step (start resetConfig [(6, 0x7FFFFFFF)] 0 0x00130293)) = some (0x80000000, 0x104) := by
  decide
theorem test_addi_IM3 :
    regPc 5 (step (start resetConfig [(6, 0x0)] 0 0x80030293)) = some (0xFFFFF800, 0x104) := by
  decide
theorem test_slti_IM9 :
    regPc 5 (step (start resetConfig [(6, 0x80000000)] 0 0x00032293)) = some (0x00000001, 0x104) := by
  decide
theorem test_slti_IM8 :
    regPc 5 (step (start resetConfig [(5, 0xAA), (6, 0xFFFFFFFF)] 0 0xFFF32293)) = some (0, 0x104) := by
  decide
theorem test_sltiu_IM10 :
    regPc 5 (step (start resetConfig [(6, 0xFFFFFFFE)] 0 0xFFF33293)) = some (0x00000001, 0x104) := by
  decide
theorem test_sltiu_IM12 :
    regPc 5 (step (start resetConfig [(6, 0x0)] 0 0x00133293)) = some (0x00000001, 0x104) := by
  decide
theorem test_xori_IM14 :
    regPc 5 (step (start resetConfig [(6, 0xF0F0F0F)] 0 0xFFF34293)) = some (0xF0F0F0F0, 0x104) := by
  decide
theorem test_xori_IM15 :
    regPc 5 (step (start resetConfig [(6, 0xFFFFFFFF)] 0 0x7FF34293)) = some (0xFFFFF800, 0x104) := by
  decide
theorem test_ori_IM16 :
    regPc 5 (step (start resetConfig [(6, 0xF)] 0 0x7F036293)) = some (0x000007FF, 0x104) := by
  decide
theorem test_ori_IM17 :
    regPc 5 (step (start resetConfig [(6, 0x0)] 0 0x80036293)) = some (0xFFFFF800, 0x104) := by
  decide
theorem test_andi_IM18 :
    regPc 5 (step (start resetConfig [(6, 0x12345678)] 0 0xFF037293)) = some (0x12345670, 0x104) := by
  decide
theorem test_andi_IM19 :
    regPc 5 (step (start resetConfig [(6, 0x12345678)] 0 0x0FF37293)) = some (0x00000078, 0x104) := by
  decide
theorem test_slli_IM20 :
    regPc 5 (step (start resetConfig [(6, 0x3)] 0 0x01F31293)) = some (0x80000000, 0x104) := by
  decide
theorem test_slli_IM22 :
    regPc 5 (step (start resetConfig [(6, 0xF0000001)] 0 0x00431293)) = some (0x00000010, 0x104) := by
  decide
theorem test_srli_IM23 :
    regPc 5 (step (start resetConfig [(6, 0x80000010)] 0 0x00435293)) = some (0x08000001, 0x104) := by
  decide
theorem test_srli_IM24 :
    regPc 5 (step (start resetConfig [(6, 0x80000000)] 0 0x01F35293)) = some (0x00000001, 0x104) := by
  decide
theorem test_srai_IM27 :
    regPc 5 (step (start resetConfig [(6, 0x80000013)] 0 0x40435293)) = some (0xF8000001, 0x104) := by
  decide
theorem test_srai_IM30 :
    regPc 5 (step (start rotating [(6, 0x80000013)] 0 0x40435293)) = some (0x38000001, 0x104) := by
  decide
theorem test_add_RG1 :
    regPc 5 (step (start resetConfig [(6, 0xFFFFFFFF), (7, 0x2)] 0 0x007302B3)) = some (0x00000001, 0x104) := by
  decide
theorem test_add_RG24 :
    regPc 0 (step (start resetConfig [(6, 0x1), (7, 0x2)] 0 0x00730033)) = some (0, 0x104) := by
  decide
theorem test_sub_RG4 :
    regPc 5 (step (start resetConfig [(6, 0x0), (7, 0x1)] 0 0x407302B3)) = some (0xFFFFFFFF, 0x104) := by
  decide
theorem test_sub_RG5 :
    regPc 5 (step (start resetConfig [(6, 0x80000000), (7, 0x1)] 0 0x407302B3)) = some (0x7FFFFFFF, 0x104) := by
  decide
theorem test_sll_RG7 :
    regPc 5 (step (start resetConfig [(6, 0x1), (7, 0x21)] 0 0x007312B3)) = some (0x00000002, 0x104) := by
  decide
theorem test_sll_RG8 :
    regPc 5 (step (start resetConfig [(6, 0x1), (7, 0x1F)] 0 0x007312B3)) = some (0x80000000, 0x104) := by
  decide
theorem test_slt_RG10 :
    regPc 5 (step (start resetConfig [(6, 0x80000000), (7, 0x0)] 0 0x007322B3)) = some (0x00000001, 0x104) := by
  decide
theorem test_slt_RG11 :
    regPc 5 (step (start resetConfig [(5, 0xAA), (6, 0x0), (7, 0x80000000)] 0 0x007322B3)) = some (0, 0x104) := by
  decide
theorem test_sltu_RG13 :
    regPc 5 (step (start resetConfig [(5, 0xAA), (6, 0x80000000), (7, 0x0)] 0 0x007332B3)) = some (0, 0x104) := by
  decide
theorem test_sltu_RG14 :
    regPc 5 (step (start resetConfig [(7, 0x5)] 0 0x007032B3)) = some (0x00000001, 0x104) := by
  decide
theorem test_xor_RG15 :
    regPc 5 (step (start resetConfig [(6, 0xFF00FF00), (7, 0xFF00FF0)] 0 0x007342B3)) = some (0xF0F0F0F0, 0x104) := by
  decide
theorem test_xor_RG16 :
    regPc 5 (step (start resetConfig [(5, 0xAA), (6, 0x1234)] 0 0x006342B3)) = some (0, 0x104) := by
  decide
theorem test_srl_RG17 :
    regPc 5 (step (start resetConfig [(6, 0x80000000), (7, 0x3F)] 0 0x007352B3)) = some (0x00000001, 0x104) := by
  decide
theorem test_srl_RG18 :
    regPc 5 (step (start resetConfig [(6, 0x80000000), (7, 0x20)] 0 0x007352B3)) = some (0x80000000, 0x104) := by
  decide
theorem test_sra_RG20 :
    regPc 5 (step (start resetConfig [(6, 0x80000013), (7, 0x4)] 0 0x407352B3)) = some (0xF8000001, 0x104) := by
  decide
theorem test_sra_RG26 :
    regPc 5 (step (start rotating [(6, 0x80000013), (7, 0x4)] 0 0x407352B3)) = some (0x38000001, 0x104) := by
  decide
theorem test_or_RG22 :
    regPc 5 (step (start resetConfig [(6, 0xF0), (7, 0xF)] 0 0x007362B3)) = some (0x000000FF, 0x104) := by
  decide
theorem test_and_RG23 :
    regPc 5 (step (start resetConfig [(6, 0xF0), (7, 0x3C)] 0 0x007372B3)) = some (0x00000030, 0x104) := by
  decide
theorem test_mul_MD1 :
    regPc 5 (step (start resetConfig [(6, 0x80000000), (7, 0xFFFFFFFF)] 0 0x027302B3)) =
      some (0x80000000, 0x104) := by
  decide
theorem test_mul_MD3 :
    regPc 5 (step (start resetConfig [(6, 0xFFFFFFFF), (7, 0xFFFFFFFF)] 0 0x027302B3)) =
      some (0x00000001, 0x104) := by
  decide
theorem test_mulh_MD5 :
    regPc 5 (step (start resetConfig [(6, 0x80000000), (7, 0x80000000)] 0 0x027312B3)) =
      some (0x40000000, 0x104) := by
  decide
theorem test_mulh_MD6 :
    regPc 5 (step (start resetConfig [(6, 0xFFFFFFFF), (7, 0x1)] 0 0x027312B3)) = some (0xFFFFFFFF, 0x104) := by
  decide
theorem test_mulhsu_MD8 :
    regPc 5 (step (start resetConfig [(6, 0xFFFFFFFF), (7, 0xFFFFFFFF)] 0 0x027322B3)) =
      some (0xFFFFFFFF, 0x104) := by
  decide
theorem test_mulhsu_MD10 :
    regPc 5 (step (start resetConfig [(6, 0x2), (7, 0x80000000)] 0 0x027322B3)) = some (0x00000001, 0x104) := by
  decide
theorem test_mulhu_MD11 :
    regPc 5 (step (start resetConfig [(6, 0xFFFFFFFF), (7, 0xFFFFFFFF)] 0 0x027332B3)) =
      some (0xFFFFFFFE, 0x104) := by
  decide
theorem test_mulhu_MD12 :
    regPc 5 (step (start resetConfig [(6, 0x80000000), (7, 0x2)] 0 0x027332B3)) = some (0x00000001, 0x104) := by
  decide
theorem test_div_MD13 :
    regPc 5 (step (start resetConfig [(6, 0xFFFFFFF9), (7, 0x2)] 0 0x027342B3)) = some (0xFFFFFFFD, 0x104) := by
  decide
theorem test_div_MD15 :
    regPc 5 (step (start resetConfig [(6, 0x80000000), (7, 0xFFFFFFFF)] 0 0x027342B3)) =
      some (0x80000000, 0x104) := by
  decide
theorem test_divu_MD18 :
    regPc 5 (step (start resetConfig [(6, 0xFFFFFFF9), (7, 0x2)] 0 0x027352B3)) = some (0x7FFFFFFC, 0x104) := by
  decide
theorem test_divu_MD19 :
    regPc 5 (step (start resetConfig [(6, 0x5), (7, 0x0)] 0 0x027352B3)) = some (0xFFFFFFFF, 0x104) := by
  decide
theorem test_rem_MD21 :
    regPc 5 (step (start resetConfig [(6, 0xFFFFFFF9), (7, 0x2)] 0 0x027362B3)) = some (0xFFFFFFFF, 0x104) := by
  decide
theorem test_rem_MD24 :
    regPc 5 (step (start resetConfig [(6, 0xFFFFFFF9), (7, 0x0)] 0 0x027362B3)) = some (0xFFFFFFF9, 0x104) := by
  decide
theorem test_remu_MD25 :
    regPc 5 (step (start resetConfig [(6, 0xFFFFFFF9), (7, 0x2)] 0 0x027372B3)) = some (0x00000001, 0x104) := by
  decide
theorem test_remu_MD26 :
    regPc 5 (step (start resetConfig [(6, 0xFFFFFFF9), (7, 0x0)] 0 0x027372B3)) = some (0xFFFFFFF9, 0x104) := by
  decide
theorem test_ecall_HT1 :
    statusPc (step (start resetConfig [(5, 0x55)] 0 0x00000073)) = some (.halted, 0x100) := by
  decide
theorem test_ebreak_HT2 :
    statusPc (step (start resetConfig [(5, 0x55)] 0 0x00100073)) = some (.halted, 0x100) := by
  decide
theorem test_systemOther_HT3 :
    statusPc (step (start resetConfig [(5, 0x55)] 0 0x300292F3)) = some (.halted, 0x100) := by
  decide
theorem test_systemOther_HT5 :
    statusPc (step (start resetConfig [(5, 0x55)] 0 0x10500073)) = some (.halted, 0x100) := by
  decide
theorem test_zeroHalt_HT7 :
    statusPc (step (start resetConfig [(5, 0x55)] 0 0x00000000)) = some (.halted, 0x100) := by
  decide
theorem test_zeroHalt_HT8 :
    statusPc (step (start resetConfig [(5, 0x55)] 0 0x00000080)) = some (.halted, 0x100) := by
  decide
theorem test_illegalOpcode_DF1 :
    statusPc (step (start resetConfig [] 0 0x00001297)) =
      some (.faulted (.illegalOpcode 0x00001297 0b0010111), 0x100) := by
  decide
theorem test_illegalShiftImm_DF9 :
    statusPc (step (start resetConfig [] 0 0x40131293)) =
      some (.faulted (.illegalShiftImm 0x40131293 0b001 0b0100000), 0x100) := by
  decide

/-- R260(b): a decode fault leaves its word and opcode latched. -/
theorem test_latched_after_decode_fault :
    (after (step (start resetConfig [] 0 0x00001297))).map (fun t => (t.currentInstructionWord, t.currentOpcode)) =
      some (0x00001297, 0x17) := by decide

/-- R260(b): a fetch fault leaves them as they were. -/
theorem test_latched_after_fetch_fault :
    (after (step { start resetConfig [] 0 0 with pc := 0xFE, currentInstructionWord := 7 })).map
      (fun t => (t.status, t.currentInstructionWord)) =
        some (.faulted (.memCrossPage 0xFE .word .fetch), 7) := by decide

/-! ## Accessors (W8) -/

/-- The memory after a store in the test geometry, or none if it faults. -/
def written (a : Nat) (w : Width) (v : Word) : Option Memory := (memWrite resetConfig [] a w .store v).toOption

theorem test_write_read_W8a :
    (written 0x2FC .word 0xCAFEBABE).map (fun m => (m.byte 0x2FC, m.byte 0x2FD, m.byte 0x2FE, m.byte 0x2FF)) =
      some (0xBE, 0xBA, 0xFE, 0xCA) := by decide
theorem test_write_read_W8b :
    (written 0x2FE .half 0xBEEF).map (fun m => (m.byte 0x2FE, m.byte 0x2FF)) = some (0xEF, 0xBE) := by decide
theorem test_write_read_W8c : (written 0x2FF .byte 0x5A).map (fun m => m.readLE 0x2FF .byte) = some 0x5A := by decide
theorem test_write_read_W8d :
    (written 0x301 .word 0x01020304).map (fun m => m.readLE 0x302 .half) = some 0x0203 := by decide
theorem test_cross_page_W8e_W8f :
    accessFault resetConfig 0x2FD .word .store = some (.memCrossPage 0x2FD .word .store) ∧
    accessFault resetConfig 0x2FF .half .store = some (.memCrossPage 0x2FF .half .store) := by decide
theorem test_out_of_range_W8g :
    accessFault resetConfig 0x1000 .byte .load = some (.memOutOfRange 0x1000 .byte .load) := by decide

/-- R67: the range check comes before the page check. -/
theorem test_range_before_crossing :
    accessFault resetConfig 0x10FE .word .load = some (.memOutOfRange 0x10FE .word .load) := by decide

/-- Writing the byte an unlisted address reads as removes the entry. -/
theorem test_canonical_memory : Memory.setByte [(4, 7)] 4 0 = [] ∧ Memory.setByte [(4, 7)] 2 1 = [(2, 1), (4, 7)] := by
  decide

/-! ## Host operations (HI1 to HI11) -/

theorem test_new_HI1 :
    after (newSession resetConfig) = some State.reset ∧ State.reset.status = .idle ∧ State.reset.pc = 0 ∧
    resetConfig.numPages = 16 ∧ resetConfig.pageSize = 256 := by decide
theorem test_new_HI2 :
    (Config.ofGeometry 4000 8).numPages = 15 ∧
    accessFault (Config.ofGeometry 4000 8) 0xEFF .byte .load = none ∧
    accessFault (Config.ofGeometry 4000 8) 0xF00 .byte .load = some (.memOutOfRange 0xF00 .byte .load) := by decide
theorem test_load_image_HI3 :
    (after (loadImage 0xFFE [1, 2, 3, 4] State.reset)).map
      (fun t => (t.status, t.mem)) =
        some (.faulted (.memOutOfRange 0x1000 .byte .image), [(0xFFE, 1), (0xFFF, 2)]) := by decide

/-- The state after one step of `run(start)` from the reset state. -/
def firstStep (start : Word) : Option State := (after (startRun start State.reset)).bind fun s => after (step s)

theorem test_run_HI4 :
    (firstStep 0x1000).map (fun t => (t.status, t.pc, t.currentInstructionWord)) =
      some (.faulted (.memOutOfRange 0x1000 .word .fetch), 0x1000, 0) := by decide
theorem test_run_HI5 :
    (firstStep 0x0FE).map (fun t => t.status) = some (.faulted (.memCrossPage 0xFE .word .fetch)) := by decide
theorem test_run_HI6 : firstStep 0 = some { State.reset with status := .halted } := by decide
theorem test_read_register_HI7_HI8 :
    (readRegister 0 State.reset).toOption = some 0 ∧ (readRegister 32 State.reset).toOption = none := by decide

/-- A faulted session. -/
def ended : State := { State.reset with status := .faulted (.memOutOfRange 0x1000 .word .fetch), pc := 0x1000 }

theorem test_refused_HI9 : after (startRun 0 ended) = none ∧ after (loadImage 0 [1] ended) = none := by decide

/-- A session halted at 8 with a register and a byte changed. -/
def stopped : State := { (State.reset.setReg 5 7) with status := .halted, pc := 8, mem := [(0x300, 9)] }

theorem test_restart_HI10 :
    after (startRun 0x10 stopped) = some { stopped with status := .running, pc := 0x10 } := by decide
theorem test_memory_buffer_HI11 :
    memoryBuffer (State.construct (Config.ofGeometry 8 2)) = [[0, 0, 0, 0], [0, 0, 0, 0]] := by decide

theorem test_withFetchWord :
    step (State.reset.withFetchWord 32 0x00100093) =
      exec (.addi 1 0 1) (latch 0x00100093 (State.reset.withFetchWord 32 0x00100093)) := rfl

/-! ## Assembler notation -/

theorem test_register_names :
    registerName 5 = "x5" ∧ abiName 0 = "zero" ∧ abiName 8 = "s0" ∧ abiName 10 = "a0" ∧ abiName 31 = "t6" := by decide
theorem test_expand_li_W7 : expand (.li 5 0xDEADBEEF) = [.lui 5 0xDEADC, .addi 5 5 (-0x111)] := by decide

/-! ## Witnesses: the hypotheses of every statement are met together, each clause at a boundary value -/

theorem witness_DecodeOfEncode : Instr.wellFormed (.jal 31 (-0x100000)) = true := by decide
theorem witness_EncodeOfDecode : decode 0xF01FF06F = .instr (.jal 0 (-0x100)) := by decide
theorem witness_UnnamedOpcodeIsIllegal :
    opcodeField 0xFFFFFFFF#32 ∉ namedOpcodes ∧ decode 0xFFFFFFFF = .illegal (.illegalOpcode 0xFFFFFFFF 0x7F) := by decide
theorem witness_UnmappedFunctionFieldsAreIllegal :
    (opcodeField 0x00033283#32 = 0x03#7 ∧ funct3Field 0x00033283#32 ∈ [3#3, 6#3, 7#3]) ∧
    (opcodeField 0x00533423#32 = 0x23#7 ∧ funct3Field 0x00533423#32 ∈ [3#3, 4#3, 5#3, 6#3, 7#3]) ∧
    (opcodeField 0x00002063#32 = 0x63#7 ∧ funct3Field 0x00002063#32 ∈ [2#3, 3#3]) ∧
    (opcodeField 0x000010E7#32 = 0x67#7 ∧ funct3Field 0x000010E7#32 ≠ 0#3) ∧
    (funct3Field 0x40131293#32 = 1#3 ∧ funct7Field 0x40131293#32 ≠ 0#7) ∧
    (funct3Field 0x02135293#32 = 5#3 ∧ funct7Field 0x02135293#32 ≠ 0#7 ∧ funct7Field 0x02135293#32 ≠ 0x20#7) ∧
    (opcodeField 0x407312B3#32 = 0x33#7 ∧ keyField 0x407312B3#32 ∉ mappedKeys) ∧
    decode 0x107302B3 = .illegal (.illegalRKey 0x107302B3 0x040) := by decide

theorem witness_AddressSplitIsUnique :
    0xFF < resetConfig.pageSize ∧ 0x1FF = 1 * resetConfig.pageSize + 0xFF ∧ 0x1FF < resetConfig.span ∧
    accessFault resetConfig 0x1FF .byte .fetch = none := by decide
theorem witness_UnbackedAccessIsOutOfRange : resetConfig.span ≤ 0x1000 ∧ 0xFFF < resetConfig.span := by decide

/-- Each of the three cases of an access at the values where they meet: the last backed word and the first unbacked
address, the last word of a page and the first that crosses its end. -/
theorem witness_access_clauses :
    OutOfRange resetConfig 0x1000 ∧ Passes resetConfig 0xFFC 4 ∧ Crosses resetConfig 0xFFD 4 ∧
    Passes resetConfig 0x1FE 2 ∧ Crosses resetConfig 0x1FF 2 ∧ Passes resetConfig 0x1FF 1 ∧
    Passes resetConfig 0x1FC 4 ∧ Crosses resetConfig 0x1FD 4 := by
  unfold OutOfRange Passes Crosses OutOfRange
  decide
theorem witness_ReadReturnsPageBytes :
    OutOfRange resetConfig 0x1000 ∧ Crosses resetConfig 0x1FD Width.word.bytes ∧
      Passes resetConfig 0x1FC Width.word.bytes :=
  ⟨witness_access_clauses.1, witness_access_clauses.2.2.2.2.2.2.2, witness_access_clauses.2.2.2.2.2.2.1⟩
theorem witness_WriteSetsPageBytes :
    Memory.wf [(0x1FB, 1), (0x1FD, 2)] ∧ Passes resetConfig 0x1FC Width.word.bytes ∧
      Crosses resetConfig 0x1FF Width.half.bytes ∧ OutOfRange resetConfig 0x1000 :=
  ⟨by decide, witness_access_clauses.2.2.2.2.2.2.1, witness_access_clauses.2.2.2.2.1, witness_access_clauses.1⟩

theorem witness_LittleEndianAtEveryWidth :
    (memRead resetConfig [(0xFFE, 0x22), (0xFFF, 0x11)] 0xFFE .half .load).toOption = some 0x1122 ∧
    (memWrite resetConfig [] 0xFFF .byte .store 0x5A).toOption = some [(0xFFF, 0x5A)] ∧
    (fetch (start resetConfig [] 0 0x00100093)).toOption = some 0x00100093 := by decide
theorem witness_MixedWidthReadsSeeOneArray :
    Memory.wf [] ∧ (memWrite resetConfig [] 0x1FC .word .store 0x00800001).toOption =
      some [(0x1FC, 1), (0x1FE, 0x80)] := by decide

theorem witness_JalResult : (BitVec.ofInt 21 (-0x100000)).getLsbD 0 = false := by decide
theorem witness_JalrResult : resetConfig.jalrMode = .pcRelative ∧ standardJalr.jalrMode = .standard := by decide

/-- Both outcomes of every branch condition at the signs' and the equality's boundaries, both link modes, an even
offset. -/
theorem witness_BranchResults :
    ((7#32 = 7#32) ∧ ¬ (7#32 = 8#32)) ∧ (7#32 ≠ 8#32 ∧ ¬ 7#32 ≠ 7#32) ∧
    ((0x80000000#32).toInt < (0x7FFFFFFF#32).toInt ∧ ¬ (3#32).toInt < (3#32).toInt) ∧
    ((3#32).toInt ≤ (3#32).toInt ∧ ¬ (0x7FFFFFFF#32).toInt ≤ (0x80000000#32).toInt) ∧
    ((0x7FFFFFFF#32).toNat < (0x80000000#32).toNat ∧ ¬ (3#32).toNat < (3#32).toNat) ∧
    ((3#32).toNat ≤ (3#32).toNat ∧ ¬ (0x80000000#32).toNat ≤ (0x7FFFFFFF#32).toNat) ∧
    resetConfig.branchLink = .noLink ∧ linking.branchLink = .linkX1 ∧ (BitVec.ofInt 13 (-4096)).getLsbD 0 = false := by
  decide

/-- A base register of 0x100 and displacements at the end of its page, in both sub-word modes. -/
theorem witness_loads_and_stores :
    effective (start resetConfig [(6, 0x100)] 0 0) 6 0xFE = 0x1FE ∧
    effective (start resetConfig [(6, 0x204)] 0 0) 6 (-4) = 0x200 ∧ effective State.reset 0 (-1) = 0xFFFFFFFF ∧
    effective (start biased [(6, 0x1000)] 0 0) 6 (-3) + 3 = 0x1000 ∧ (start resetConfig [(6, 0x100)] 7 9).mem.wf := by
  decide
theorem witness_LoadWordResult :
    Crosses resetConfig (effective (start resetConfig [(6, 0x100)] 0 0) 6 0xFD) 4 ∧
    Passes resetConfig (effective (start resetConfig [(6, 0x100)] 0 0) 6 0xFC) 4 ∧
    OutOfRange resetConfig (effective (start resetConfig [(6, 0x1000)] 0 0) 6 0) := by
  unfold OutOfRange Passes Crosses OutOfRange
  decide

/-- Sub-word: the half-word at the end of a page crosses without the bias and passes with it; the byte before the span
passes without the bias and is out of range with it. -/
theorem witness_SubwordLoadResults :
    Crosses resetConfig (effective (start resetConfig [(6, 0x100)] 0 0) 6 0xFF) 2 ∧
    Passes biased (effective (start biased [(6, 0x100)] 0 0) 6 0xFF + 2) 2 ∧
    Passes resetConfig (effective (start resetConfig [(6, 0x1000)] 0 0) 6 (-1)) 1 ∧
    OutOfRange biased (effective (start biased [(6, 0x1000)] 0 0) 6 (-1) + 3) := by
  unfold OutOfRange Passes Crosses OutOfRange
  decide
theorem witness_StoreWordResult_and_StoreThenLoadRoundTrip :
    (start resetConfig [(5, 0x11223344), (6, 0x100)] 0 0).mem.wf ∧ (7 : RegIdx) ≠ 0 ∧
    (0x11223344 : Word) = (start resetConfig [(5, 0x11223344), (6, 0x100)] 0 0).reg 5 ∧
    Passes resetConfig (effective (start resetConfig [(5, 0x11223344), (6, 0x100)] 0 0) 6 0xFC) 4 ∧
    Crosses resetConfig (effective (start resetConfig [(5, 0x11223344), (6, 0x100)] 0 0) 6 0xFD) 4 ∧
    OutOfRange resetConfig (effective (start resetConfig [(5, 0x11223344), (6, 0x1000)] 0 0) 6 0) := by
  unfold OutOfRange Passes Crosses OutOfRange
  decide
theorem witness_SubwordStoreResults :
    (start resetConfig [(6, 0x100)] 0 0).mem.wf ∧
    Passes resetConfig (effective (start resetConfig [(6, 0x100)] 0 0) 6 0xFF) 1 ∧
    Passes resetConfig (effective (start resetConfig [(6, 0x100)] 0 0) 6 0xFE) 2 ∧
    Crosses resetConfig (effective (start resetConfig [(6, 0x100)] 0 0) 6 0xFF) 2 ∧
    OutOfRange resetConfig (effective (start resetConfig [(6, 0x1000)] 0 0) 6 0) := by
  unfold OutOfRange Passes Crosses OutOfRange
  decide

theorem witness_DivisionLaw :
    ∃ q r qu ru : State, (5 : RegIdx) ≠ 0 ∧
      exec (.div 5 6 7) (start resetConfig [(6, 0x80000000), (7, 0xFFFFFFFF)] 0 0) = .next q ∧
      exec (.rem 5 6 7) (start resetConfig [(6, 0x80000000), (7, 0xFFFFFFFF)] 0 0) = .next r ∧
      exec (.divu 5 6 7) (start resetConfig [(6, 0x80000000), (7, 0xFFFFFFFF)] 0 0) = .next qu ∧
      exec (.remu 5 6 7) (start resetConfig [(6, 0x80000000), (7, 0xFFFFFFFF)] 0 0) = .next ru ∧
      (start resetConfig [(6, 0x80000000), (7, 0xFFFFFFFF)] 0 0).reg 7 ≠ 0 :=
  ⟨_, _, _, _, by decide, rfl, rfl, rfl, rfl, by decide⟩
theorem witness_HaltingWords :
    (BitVec.extractLsb' 0 7 0x300292F3#32 = 0x73#7 ∧ 0x300292F3#32 ≠ 0x00000073#32 ∧ 0x300292F3#32 ≠ 0x00100073#32) ∧
    BitVec.extractLsb' 0 7 0x00000080#32 = 0x00#7 := by decide

/-- A running core with a fetch that fails, with a word that does not decode and with one that does. -/
theorem witness_StepRunsDecodedInstruction :
    (start resetConfig [] 0 0x00001297).status = .running ∧
    accessFault resetConfig 0xFD .word .fetch = some (.memCrossPage 0xFD .word .fetch) ∧
    (fetch (start resetConfig [] 0 0x00001297)).toOption = some 0x00001297 ∧
    decode 0x00001297 = .illegal (.illegalOpcode 0x00001297 0x17) ∧
    (fetch (start resetConfig [] 0 0x00100093)).toOption = some 0x00100093 ∧
    decode 0x00100093 = .instr (.addi 1 0 1) := by decide
theorem witness_NextPcOfEveryInstruction :
    instrFault (.lw 5 6 0) (start resetConfig [(6, 0xFFC)] 0 0) = none ∧
    instrFault (.lw 5 6 1) (start resetConfig [(6, 0xFFC)] 0 0) = some (.memCrossPage 0xFFD .word .load) := by decide

/-- Steps that leave a running, a halted and a faulted core, the last by each of the three ways. -/
theorem witness_RunEndsOnlyByHaltOrFault :
    statusPc (step (start resetConfig [] 0 0x00100093)) = some (.running, 0x104) ∧
    statusPc (step (start resetConfig [] 0 0x00000080)) = some (.halted, 0x100) ∧
    statusPc (step { start resetConfig [] 0 0 with pc := 0x1000 }) =
      some (.faulted (.memOutOfRange 0x1000 .word .fetch), 0x1000) ∧
    statusPc (step (start resetConfig [] 0 0x00000001)) = some (.faulted (.illegalOpcode 1 1), 0x100) ∧
    statusPc (step (start resetConfig [] 0 0xFFF02283)) =
      some (.faulted (.memOutOfRange 0xFFFFFFFF .word .load), 0x100) := by decide
theorem witness_FaultsArePrecise :
    ∃ t, step (start resetConfig [] 0 0x00000001) = .next t ∧ t.status = .faulted (.illegalOpcode 1 1) :=
  ⟨_, rfl, by decide⟩

/-- Every kind of fault an access instruction can raise. -/
theorem witness_FaultKindsByInstruction :
    instrFault (.lb 5 6 0) (start resetConfig [(6, 0x1000)] 0 0) = some (.memOutOfRange 0x1000 .byte .load) ∧
    instrFault (.lbu 5 6 0) (start resetConfig [(6, 0x1000)] 0 0) = some (.memOutOfRange 0x1000 .byte .load) ∧
    instrFault (.sb 5 6 0) (start resetConfig [(6, 0x1000)] 0 0) = some (.memOutOfRange 0x1000 .byte .store) ∧
    instrFault (.lh 5 6 0) (start resetConfig [(6, 0x1000)] 0 0) = some (.memOutOfRange 0x1000 .half .load) ∧
    instrFault (.lhu 5 6 (-1)) (start resetConfig [(6, 0x200)] 0 0) = some (.memCrossPage 0x1FF .half .load) ∧
    instrFault (.lw 5 6 0) (start resetConfig [(6, 0x1000)] 0 0) = some (.memOutOfRange 0x1000 .word .load) ∧
    instrFault (.lw 5 6 (-3)) (start resetConfig [(6, 0x200)] 0 0) = some (.memCrossPage 0x1FD .word .load) ∧
    instrFault (.sh 5 6 0) (start resetConfig [(6, 0x1000)] 0 0) = some (.memOutOfRange 0x1000 .half .store) ∧
    instrFault (.sh 5 6 (-1)) (start resetConfig [(6, 0x200)] 0 0) = some (.memCrossPage 0x1FF .half .store) ∧
    instrFault (.sw 5 6 0) (start resetConfig [(6, 0x1000)] 0 0) = some (.memOutOfRange 0x1000 .word .store) ∧
    instrFault (.sw 5 6 (-3)) (start resetConfig [(6, 0x200)] 0 0) = some (.memCrossPage 0x1FD .word .store) ∧
    ∃ t, exec (.lb 5 6 0) (start resetConfig [(6, 0x1000)] 0 0) = .next t ∧
      t.status = .faulted (.memOutOfRange 0x1000 .byte .load) :=
  ⟨by decide, by decide, by decide, by decide, by decide, by decide, by decide, by decide, by decide, by decide,
    by decide, _, rfl, by decide⟩

theorem witness_OnlyDestinationsChange :
    ∃ t, step (start resetConfig [] 0 0x00100093) = .next t ∧ t.reg 1 ≠ (start resetConfig [] 0 0x00100093).reg 1 :=
  ⟨_, rfl, by decide⟩
theorem witness_OnlyStoresChangeMemory :
    (start resetConfig [(6, 0xFFC)] 0 0x006321A3).mem.wf ∧
    ∃ t, step (start resetConfig [(6, 0x2FC)] 0 0x00632023) = .next t ∧
      t.mem.byte 0x2FC ≠ (start resetConfig [(6, 0x2FC)] 0 0x00632023).mem.byte 0x2FC :=
  ⟨by decide, _, rfl, by decide⟩
theorem witness_DiscardedDestinationChangesOnlyPc :
    destinations (.lw 0 6 0) (start resetConfig [(6, 0xFFC)] 0 0) = [0] ∧
    instrFault (.lw 0 6 0) (start resetConfig [(6, 0xFFC)] 0 0) = none := by decide
theorem witness_LatchedWordCarriesNoState :
    (start resetConfig [] 0 0x00100093).status = .running ∧
    (fetch (start resetConfig [] 0 0x00100093)).toOption = some 0x00100093 := by decide

/-- `sw x5, 0(x6)` at 0x100 with x6 = 0x104 and x5 the word of ECALL. -/
theorem witness_StoreIsSeenByNextFetch :
    (start resetConfig [(5, 0x73), (6, 0x104)] 0 0x00532023).mem.wf ∧
    (start resetConfig [(5, 0x73), (6, 0x104)] 0 0x00532023).status = .running ∧
    (fetch (start resetConfig [(5, 0x73), (6, 0x104)] 0 0x00532023)).toOption = some 0x00532023 ∧
    decode 0x00532023 = .instr (.sw 5 6 0) ∧
    effective (start resetConfig [(5, 0x73), (6, 0x104)] 0 0x00532023) 6 0 = (0x100#32 + 4).toNat ∧
    Passes resetConfig 0x104 4 ∧ decode 0x73 = .instr .ecall := by
  unfold Passes OutOfRange
  decide
theorem witness_JumpToItselfNeverEnds :
    (start resetConfig [] 0 0x0000006F).status = .running ∧
    (fetch (start resetConfig [] 0 0x0000006F)).toOption = some 0x0000006F ∧
    (start linking [] 0 0x00000063).status = .running ∧
    (fetch (start linking [] 0 0x00000063)).toOption = some 0x00000063 := by decide
theorem witness_NeverWrittenMemoryHalts : Passes resetConfig 0xFFC 4 := by
  unfold Passes OutOfRange
  decide

/-- Geometries at the edges of the constraints of R9. -/
theorem witness_NewSessionMeetsInvariant :
    (Config.ofGeometry 4 2).valid ∧ (Config.ofGeometry (2 ^ 32) 32).valid ∧ ¬ (Config.ofGeometry 3 2).valid ∧
    ¬ (Config.ofGeometry 4 1).valid ∧ ¬ (Config.ofGeometry (2 ^ 32 + 4) 2).valid ∧
    ¬ (Config.ofGeometry (2 ^ 33) 33).valid := by
  refine ⟨?_, ?_, ?_, ?_, ?_, ?_⟩ <;> simp [Config.valid, Config.span, Config.numPages, Config.pageSize, Config.ofGeometry]

theorem start_inv : (start resetConfig [(6, 0x204)] 0 0x00632023).Inv :=
  ⟨by decide, by decide, by decide, by decide, by decide, trivial⟩
theorem reset_inv : State.reset.Inv := ⟨by decide, by decide, by decide, by decide, by decide, trivial⟩
theorem witness_StepKeepsInvariant :
    (start resetConfig [(6, 0x204)] 0 0x00632023).Inv ∧
    ∃ t, step (start resetConfig [(6, 0x204)] 0 0x00632023) = .next t ∧ t.status = .running :=
  ⟨start_inv, _, rfl, by decide⟩
theorem witness_HostOperationsKeepInvariant :
    State.reset.Inv ∧ (∃ t, loadImage 0xFFE [1, 2, 3] State.reset = .next t ∧
      t.status = .faulted (.memOutOfRange 0x1000 .byte .image)) ∧ ∃ t, startRun 0x1000 State.reset = .next t :=
  ⟨reset_inv, ⟨_, rfl, by decide⟩, _, rfl⟩
theorem witness_FaultedSessionIsOver : ended.status = .faulted (.memOutOfRange 0x1000 .word .fetch) := by decide
theorem witness_RunStartsAtGivenAddress :
    State.reset.status = .idle ∧ stopped.status = .halted ∧ State.reset.cfg.span ≤ (0x1000#32).toNat := by decide

/-- Two bytes fit from 0xFFE and a third does not; from 0x1000 none fits. -/
theorem witness_LoadImageWritesInOrder :
    State.reset.mem.wf ∧ State.reset.status = .idle ∧ stopped.status = .halted ∧
    2 = State.reset.cfg.span - (0xFFE#32).toNat ∧ [1#8, 2#8].length ≤ 2 ∧ 2 < [1#8, 2#8, 3#8].length ∧
    0 = State.reset.cfg.span - (0x1000#32).toNat := by decide
theorem witness_RunResultIndependentOfFuel :
    continueRun 1 (start resetConfig [] 0 0x00000073) =
      some { latch 0x00000073 (start resetConfig [] 0 0x00000073) with status := .halted } := by decide
theorem witness_ParametersAreFixed :
    (after (step (start linking [] 0 0x00100093))).map (fun t => t.cfg) = some linking ∧
    (after (loadImage 0 [1] State.reset)).map (fun t => t.cfg) = some resetConfig ∧
    (after (startRun 0 stopped)).map (fun t => t.cfg) = some resetConfig := by decide

/-- Both forms of `li`: one instruction at the ends of the 12-bit range, two just outside it. -/
theorem witness_LoadImmediateExpansion :
    (1 : RegIdx) ≠ 0 ∧ (expandLi 1 0x7FF).length = 1 ∧ (expandLi 1 0xFFFFF800).length = 1 ∧
    expandLi 1 0x800 = [.lui 1 1, .addi 1 1 (-2048)] := by decide

end Sys2Proof.Tests
end

section
/-! The invariant of a session and its parameters: construction establishes the invariant, every step keeps it, and no
operation changes the parameters (R9, R260 to R264, R290). -/

namespace Sys2Proof.Machine

/-! ## Truthful fault records -/

/-- A decode fault of the latched word is justified (R124). -/
theorem faultJustified_of_decode {s : State} {f : FaultRecord} (h : decode s.currentInstructionWord = .illegal f) :
    faultJustified s f := by
  obtain ⟨_, rfl⟩ | ⟨_, _, rfl⟩ | ⟨_, _, rfl⟩ | ⟨_, rfl⟩ := decode_illegal h
  all_goals exact ⟨rfl, h⟩

/-- A fault of the access checks is justified where the access is (R63, R64). -/
theorem faultJustified_of_access {s : State} {a : Nat} {w : Width} {k : AccessKind} {f : FaultRecord}
    (hj : faultJustified.accessJustified s a w k) (h : accessFault s.cfg a w k = some f) : faultJustified s f := by
  obtain rfl | rfl := accessFault_some h
  all_goals exact ⟨hj, h⟩

/-- No instruction's own access is a fetch or an image write (R263). -/
theorem memoryAccess_kind {i : Instr} {s : State} {a : Nat} {w : Width} {k : AccessKind}
    (h : memoryAccess i s = some (a, w, k)) : k = .load ∨ k = .store := by
  cases i with
  | lb | lh | lw | lbu | lhu => cases h; exact .inl rfl
  | sb | sh | sw => cases h; exact .inr rfl
  | _ => cases h

theorem instrFault_of_memoryAccess {i : Instr} {s : State} {a : Nat} {w : Width} {k : AccessKind}
    (h : memoryAccess i s = some (a, w, k)) : instrFault i s = accessFault s.cfg a w k := by
  simp [instrFault, h]

/-- A fault of an instruction is the fault of its one access. -/
theorem instrFault_some {i : Instr} {s : State} {f : FaultRecord} (h : instrFault i s = some f) :
    ∃ a w k, memoryAccess i s = some (a, w, k) ∧ accessFault s.cfg a w k = some f := by
  unfold instrFault at h
  split at h
  · cases h
  · exact ⟨_, _, _, by assumption, h⟩

@[simp] theorem instrFault_setStatus (i : Instr) (s : State) (st : Status) :
    instrFault i (s.setStatus st) = instrFault i s := by
  simp [instrFault]

/-- The fault of the latched instruction's access is justified (R263). -/
theorem faultJustified_of_instrFault {s : State} {i : Instr} {f : FaultRecord}
    (d : decode s.currentInstructionWord = .instr i) (h : instrFault i s = some f) : faultJustified s f := by
  obtain ⟨a, w, k, ha, hf⟩ := instrFault_some h
  refine faultJustified_of_access ?_ hf
  obtain rfl | rfl := memoryAccess_kind ha
  all_goals exact ⟨i, d, ha⟩

/-- The fault of a failing fetch is justified by the pc (R264). -/
theorem faultJustified_of_fetch {s : State} {f : FaultRecord} (h : fetch s = .error f) : faultJustified s f :=
  faultJustified_of_access (k := .fetch) ⟨rfl, rfl⟩ (fetch_error h)

/-! ## The invariant under each part of a step -/

theorem statusJustified_of_running {s : State} (run : s.status = .running) : statusJustified s := by
  simp [statusJustified, run]

/-- A store that passes its checks lists only backed addresses (R61, R73). -/
theorem Memory.writeLE_backed {c : Config} {m : Memory} {a : Nat} {w : Width} {k : AccessKind} {v : Word}
    (hm : ∀ x ∈ m, x.1 < c.span) (h : accessFault c a w k = none) : ∀ x ∈ m.writeLE a v w, x.1 < c.span := by
  intro x hx
  obtain hx | ⟨-, hx⟩ := Memory.mem_writeLE hx
  · exact hm x hx
  · exact hx.trans_le (access_below_span h)

/-- A new status asks only for its own justification. -/
theorem State.Inv.setStatus {s : State} (hi : s.Inv) {st : Status} (hst : statusJustified (s.setStatus st)) :
    (s.setStatus st).Inv :=
  { hi with status := hst }

/-- Latching keeps the invariant of a running core (R41). -/
theorem State.Inv.latch {s : State} (hi : s.Inv) (run : s.status = .running) (w : Word) : (latch w s).Inv :=
  { hi with latched := rfl, status := statusJustified_of_running run }

/-- Executing the latched instruction keeps the invariant of a running core. -/
theorem ExecCase.inv {i : Instr} {s t : State} (c : ExecCase i s t) (hi : s.Inv) (run : s.status = .running)
    (d : decode s.currentInstructionWord = .instr i) : t.Inv := by
  cases c with
  | faults f h e =>
    subst e
    exact hi.setStatus (faultJustified_of_instrFault d (by simpa using h))
  | halted h e =>
    subst e
    exact hi.setStatus ((decode_halts d).mp h)
  | completes ok h shell x0 regs mem =>
    obtain ⟨hcfg, hword, hop, hst⟩ := shell
    obtain ⟨hwf, hbacked⟩ : t.mem.wf ∧ ∀ x ∈ t.mem, x.1 < s.cfg.span := by
      obtain hm | ⟨a, w, v, ha, hm⟩ := mem
      · rw [hm]; exact ⟨hi.canonical, hi.backed⟩
      · have hf : accessFault s.cfg a w .store = none := (instrFault_of_memoryAccess ha).symm.trans ok
        rw [hm]; exact ⟨Memory.writeLE_wf hi.canonical .., Memory.writeLE_backed hi.backed hf⟩
    exact
      { geometry := hcfg ▸ hi.geometry
        canonical := hwf
        backed := hcfg ▸ hbacked
        x0 := x0.trans hi.x0
        latched := by rw [hop, hword]; exact hi.latched
        status := statusJustified_of_running (hst.trans run) }

/-- Settles O51: each of the four ways a step can go (`step_cases`) keeps the invariant. -/
theorem stepKeepsInvariant : Obligations.StepKeepsInvariant := by
  intro s t hi h
  cases step_cases h with
  | stands _ e => exact e ▸ hi
  | fetchFault f _ hf e =>
    subst e
    exact hi.setStatus (faultJustified_of_fetch (s := s.setStatus _) hf)
  | decodeFault w f run _ d e =>
    subst e
    exact (hi.latch run w).setStatus (faultJustified_of_decode d)
  | runs w i run _ d _ c => exact c.inv (hi.latch run w) run d

/-! ## The parameters -/

theorem ExecCase.cfg {i : Instr} {s t : State} (c : ExecCase i s t) : t.cfg = s.cfg := by
  cases c with
  | faults f h e => rw [e, State.setStatus_cfg]
  | halted h e => rw [e, State.setStatus_cfg]
  | completes ok h shell => exact shell.1

theorem step_cfg {s t : State} (h : step s = .next t) : t.cfg = s.cfg := by
  cases step_cases h with
  | stands _ e => rw [e]
  | fetchFault f _ _ e => rw [e, State.setStatus_cfg]
  | decodeFault w f _ _ _ e => rw [e, State.setStatus_cfg, latch_cfg]
  | runs w i _ _ _ _ c => rw [c.cfg, latch_cfg]

/-- Everything a `load_image` that answers a next state does: the byte writes, and the fault of the first that fails
(R75, R276). -/
theorem loadImage_cases {s t : State} {offset : Word} {bytes : List Byte} (h : loadImage offset bytes s = .next t) :
    hostRefusal s = none ∧ ∃ m,
      (loadBytes s.cfg s.mem offset.toNat bytes = (m, none) ∧ t = s.setMem m) ∨
      ∃ f, loadBytes s.cfg s.mem offset.toNat bytes = (m, some f) ∧ t = (s.setMem m).setStatus (.faulted f) := by
  unfold loadImage at h
  split at h
  · cases h
  next hr =>
    split at h
    next m hb => cases h; exact ⟨hr, m, .inl ⟨hb, rfl⟩⟩
    next m f hb => cases h; exact ⟨hr, m, .inr ⟨f, hb, rfl⟩⟩

/-- Everything the start of a run does (R276, R291). -/
theorem startRun_cases {s t : State} {start : Word} (h : startRun start s = .next t) :
    hostRefusal s = none ∧ t = (s.setPc start).setStatus .running := by
  unfold startRun at h
  split at h
  · cases h
  next hr => cases h; exact ⟨hr, rfl⟩

theorem loadImage_cfg {s t : State} {offset : Word} {bytes : List Byte} (h : loadImage offset bytes s = .next t) :
    t.cfg = s.cfg := by
  obtain ⟨-, m, ⟨-, rfl⟩ | ⟨f, -, rfl⟩⟩ := loadImage_cases h <;> rfl

theorem startRun_cfg {s t : State} {start : Word} (h : startRun start s = .next t) : t.cfg = s.cfg := by
  obtain ⟨-, rfl⟩ := startRun_cases h; rfl

/-- Settles O58, operation by operation. -/
theorem parametersAreFixed : Obligations.ParametersAreFixed := by
  rintro s t a bytes (h | h | h)
  · exact step_cfg h
  · exact loadImage_cfg h
  · exact startRun_cfg h

/-! ## Construction -/

/-- The construction of a legal geometry meets the invariant (R290). -/
theorem State.construct_inv {cfg : Config} (h : cfg.valid) : (State.construct cfg).Inv where
  geometry := h
  canonical := ⟨.nil, by simp [State.construct]⟩
  backed := by simp [State.construct]
  x0 := rfl
  latched := rfl
  status := trivial

/-- Settles O49: `new` branches on the constraints of R9. -/
theorem newSessionMeetsInvariant : Obligations.NewSessionMeetsInvariant :=
  ⟨fun _ h => ⟨if_pos h, State.construct_inv h⟩, fun _ h => if_neg h⟩

end Sys2Proof.Machine
end

section
/-! One step of a running core: the fetch, latch, decode and execute equations, the next pc of every instruction, how a
step can end a run, and which register it can change (R34 to R48, R121, R260). -/

namespace Sys2Proof.Machine

open Sys2Proof.Claims

/-! ## The equations of a step (R46) -/

theorem step_of_fetch_error {s : State} {f : FaultRecord} (run : s.status = .running) (h : fetch s = .error f) :
    step s = raise f s := by
  simp only [step_running run, cycle, h]

theorem step_of_decode_illegal {s : State} {w : Word} {f : FaultRecord} (run : s.status = .running)
    (h : fetch s = .ok w) (d : decode w = .illegal f) : step s = raise f (latch w s) := by
  simp only [step_running run, cycle, h, d]

theorem step_of_decode_instr {s : State} {w : Word} {i : Instr} (run : s.status = .running)
    (h : fetch s = .ok w) (d : decode w = .instr i) : step s = exec i (latch w s) := by
  simp only [step_running run, cycle, h, d]

/-- Settles O36: the latched state is `latch w s`. -/
theorem stepRunsDecodedInstruction : Obligations.StepRunsDecodedInstruction := by
  refine fun s run => ⟨fun f h => ?_, fun w h =>
    ⟨latch w s, rfl, rfl, rfl, rfl, rfl, rfl, run, fun f d => ?_, fun i d => step_of_decode_instr run h d⟩⟩
  · rw [step_of_fetch_error run h]; exact raise_spec f s
  · rw [step_of_decode_illegal run h d]; exact raise_spec f (latch w s)

/-- What a step answers depends on the fetched word and the state after the latch only. -/
theorem step_eq_of_latch_eq {r s : State} {w : Word} (hr : r.status = .running) (hs : s.status = .running)
    (fr : fetch r = .ok w) (fs : fetch s = .ok w) (hl : latch w r = latch w s) : step r = step s := by
  cases d : decode w with
  | illegal f => rw [step_of_decode_illegal hr fr d, hl, step_of_decode_illegal hs fs d]
  | instr i => rw [step_of_decode_instr hr fr d, hl, step_of_decode_instr hs fs d]

/-- Settles O44: the fetch reads neither latched field, and the latch overwrites both. -/
theorem latchedWordCarriesNoState : Obligations.LatchedWordCarriesNoState :=
  fun _ _ _ _ run h => step_eq_of_latch_eq run run h h rfl

/-! ## The next pc (R37, R141, R142, R170, R244) -/

theorem writeBack_pc (rd : RegIdx) (v : Word) (s : State) : ∃ t, writeBack rd v s = .next t ∧ t.pc = s.pc + 4 :=
  ⟨_, rfl, by simp⟩

theorem jumpAndLink_pc (rd : RegIdx) (target : Word) (s : State) :
    ∃ t, jumpAndLink rd target s = .next t ∧ t.pc = target :=
  ⟨_, rfl, rfl⟩

/-- The JALR target in both modes: clearing bit 0 is masking with the complement of 1 (R142). -/
theorem jalrTarget_eq_nextPc (rd rs1 : RegIdx) (imm : BitVec 12) (s : State) :
    jalrTarget s rs1 imm = NextPc (.jalr rd rs1 imm) s := by
  unfold jalrTarget NextPc
  cases s.cfg.jalrMode <;> rfl

theorem load_pc {w : Width} {e : Word → Word} {rd rs1 : RegIdx} {imm : BitVec 12} {s : State}
    (ok : accessFault s.cfg (loadAddress s w rs1 imm) w .load = none) :
    ∃ t, load w e rd rs1 imm s = .next t ∧ t.pc = s.pc + 4 := by
  rw [load_ok ok]
  exact writeBack_pc ..

theorem store_pc {w : Width} {rs2 rs1 : RegIdx} {imm : BitVec 12} {s : State}
    (ok : accessFault s.cfg (storeAddress s rs1 imm) w .store = none) :
    ∃ t, store w rs2 rs1 imm s = .next t ∧ t.pc = s.pc + 4 :=
  ⟨_, store_ok ok, rfl⟩

/-- The pc after a branch whose decided condition is `P` (R170). -/
theorem branch_pc {taken : Bool} {P : Prop} [Decidable P] (hP : taken = true ↔ P) (offset : BitVec 13) (s : State) :
    ∃ t, branch taken offset s = .next t ∧ t.pc = if P then s.pc + offset.signExtend 32 else s.pc + 4 := by
  cases taken with
  | true => exact ⟨_, rfl, (if_pos (hP.mp rfl)).symm⟩
  | false => exact ⟨_, rfl, (if_neg fun h => Bool.false_ne_true (hP.mpr h)).symm⟩

theorem lessSigned_iff (a b : Word) : lessSigned a b = true ↔ a.toInt < b.toInt := decide_eq_true_iff

theorem not_lessSigned_iff (a b : Word) : (!lessSigned a b) = true ↔ b.toInt ≤ a.toInt := by simp [lessSigned]

theorem lessUnsigned_iff (a b : Word) : lessUnsigned a b = true ↔ a.toNat < b.toNat := decide_eq_true_iff

theorem not_lessUnsigned_iff (a b : Word) : (!lessUnsigned a b) = true ↔ b.toNat ≤ a.toNat := by simp [lessUnsigned]

/-- The pc of an instruction whose access, if it makes one, passes its checks (R37). -/
theorem exec_pc {i : Instr} {s : State} (ok : instrFault i s = none) :
    ∃ t, exec i s = .next t ∧ t.pc = NextPc i s := by
  cases i with
  | lui | addi | slti | sltiu | xori | ori | andi | slli | srli | srai | add | sub | sll | slt | sltu | xor | srl | sra
  | or | and | mul | mulh | mulhsu | mulhu | div | divu | rem | remu => exact writeBack_pc ..
  | jal => exact jumpAndLink_pc ..
  | jalr rd rs1 imm => rw [← jalrTarget_eq_nextPc]; exact jumpAndLink_pc ..
  | beq => exact branch_pc beq_iff_eq ..
  | bne => exact branch_pc bne_iff_ne ..
  | blt => exact branch_pc (lessSigned_iff ..) ..
  | bge => exact branch_pc (not_lessSigned_iff ..) ..
  | bltu => exact branch_pc (lessUnsigned_iff ..) ..
  | bgeu => exact branch_pc (not_lessUnsigned_iff ..) ..
  | lb | lh | lw | lbu | lhu => exact load_pc ok
  | sb | sh | sw => exact store_pc ok
  | ecall | ebreak | systemOther | zeroHalt => exact ⟨_, rfl, rfl⟩

/-- A halting instruction makes no access, so it never faults (R244). -/
theorem instrFault_of_halts {i : Instr} (s : State) (h : halts i = true) : instrFault i s = none := by
  cases i with
  | ecall | ebreak | systemOther | zeroHalt => rfl
  | _ => cases h

/-- An instruction whose access faults only raises the fault (R260, R264). -/
theorem exec_of_instrFault {i : Instr} {s : State} {f : FaultRecord} (h : instrFault i s = some f) :
    exec i s = raise f s := by
  obtain ⟨t, hx, c⟩ := exec_cases i s
  cases c with
  | faults g hg e => rw [hx, e, Option.some.inj (h.symm.trans hg)]; rfl
  | halted hh => cases h.symm.trans (instrFault_of_halts s hh)
  | completes ok => cases h.symm.trans ok

/-- Settles O37: an access that passes leaves the next pc of `exec_pc`, one that faults only raises its fault. -/
theorem nextPcOfEveryInstruction : Obligations.NextPcOfEveryInstruction := by
  intro i s
  cases h : instrFault i s with
  | none =>
    obtain ⟨t, hx, hpc⟩ := exec_pc h
    exact ⟨t, hx, fun _ => hpc, fun hn => absurd rfl hn⟩
  | some f => exact ⟨_, exec_of_instrFault h, nofun, fun _ => rfl⟩

/-! ## How a step can end a run (R48, R121, R260) -/

/-- A halting word always decodes, to an instruction (R121). -/
theorem decode_of_haltingWord {w : Word} (h : haltingWord w) : ∃ i, decode w = .instr i := by
  obtain h | h := h <;> exact ⟨_, by simp only [decode, h]; rfl⟩

theorem not_haltingWord_of_illegal {w : Word} {f : FaultRecord} (d : decode w = .illegal f) : ¬ haltingWord w := by
  intro h
  obtain ⟨i, hi⟩ := decode_of_haltingWord h
  cases d.symm.trans hi

/-- A running core that executes an instruction is halted exactly by a halting one. -/
theorem ExecCase.halted_iff {i : Instr} {s t : State} (c : ExecCase i s t) (run : s.status = .running) :
    t.status = .halted ↔ halts i = true := by
  cases c with
  | faults f h e =>
    have hh : halts i ≠ true := fun hh => by cases h.symm.trans (instrFault_of_halts s hh)
    simp [e, hh]
  | halted h e => simp [e, h]
  | completes ok h shell =>
    obtain ⟨-, -, -, hst⟩ := shell
    simp [hst, run, h]

/-- A running core that executes an instruction is faulted exactly by the fault of the instruction's access. -/
theorem ExecCase.faulted_iff {i : Instr} {s t : State} (c : ExecCase i s t) (run : s.status = .running)
    (f : FaultRecord) : t.status = .faulted f ↔ instrFault i s = some f := by
  cases c with
  | faults g h e => simp [e, h]
  | halted h e => simp [e, instrFault_of_halts s h]
  | completes ok h shell =>
    obtain ⟨-, -, -, hst⟩ := shell
    simp [hst, run, ok]

theorem ExecCase.running_or_ended {i : Instr} {s t : State} (c : ExecCase i s t) (run : s.status = .running) :
    t.status = .running ∨ t.status = .halted ∨ ∃ f, t.status = .faulted f := by
  cases c with
  | faults f _ e => exact .inr (.inr ⟨f, by rw [e, State.setStatus_status]⟩)
  | halted _ e => exact .inr (.inl (by rw [e, State.setStatus_status]))
  | completes _ _ shell =>
    obtain ⟨-, -, -, hst⟩ := shell
    exact .inl (hst.trans run)

/-- Settles O38: the four ways a step can go (`step_cases`) fix the status and the three ways to fault. -/
theorem runEndsOnlyByHaltOrFault : Obligations.RunEndsOnlyByHaltOrFault := by
  intro s run
  obtain ⟨t, ht⟩ := step_total run
  refine ⟨t, ht, ?_⟩
  cases step_cases ht with
  | stands h => simp [run] at h
  | fetchFault f _ h e => simp [e, h]
  | decodeFault w f _ h d e => simp [e, h, d, not_haltingWord_of_illegal d]
  | runs w i _ h d _ c =>
    refine ⟨c.running_or_ended run, ?_, fun f => ?_⟩
    · rw [c.halted_iff run, decode_halts d]
      simp [h]
    · rw [c.faulted_iff run, instrFault_latch]
      simp [h, d]

/-! ## The register a step can change (R32, R34, R35) -/

/-- An instruction has at most one destination (R34, R35). -/
theorem destinations_eq_singleton {i : Instr} {s : State} {r : RegIdx} (h : r ∈ destinations i s) :
    destinations i s = [r] := by
  cases i with
  | sb | sh | sw | ecall | ebreak | systemOther | zeroHalt => cases h
  | beq | bne | blt | bge | bltu | bgeu =>
    cases hb : s.cfg.branchLink with
    | noLink => simp [destinations, hb] at h
    | linkX1 => simpa [destinations, hb, eq_comm] using h
  | _ => rw [List.mem_singleton.mp h]; rfl

/-- Settles O41: only an instruction that completes changes a register, and then only its one destination. -/
theorem onlyDestinationsChange : Obligations.OnlyDestinationsChange := by
  intro s t ht
  refine ⟨rfl, fun r hr => ?_⟩
  have hr0 : r ≠ 0 := by rintro rfl; exact hr rfl
  cases step_cases ht with
  | stands _ e => exact absurd (e ▸ rfl) hr
  | fetchFault f _ _ e => exact absurd (e ▸ rfl) hr
  | decodeFault w f _ _ _ e => exact absurd (e ▸ rfl) hr
  | runs w i run h d _ c =>
    cases c with
    | faults f _ e => exact absurd (e ▸ rfl) hr
    | halted _ e => exact absurd (e ▸ rfl) hr
    | completes ok _ _ _ regs =>
      have hd : r ∈ destinations i s := by
        by_contra hn
        exact hr (regs r (by simpa using hn))
      exact ⟨hr0, run, w, i, h, d, by simpa using ok, destinations_eq_singleton hd⟩

end Sys2Proof.Machine
end

section
/-! The page array and the accessors over it: how an address splits into a page and an offset, when an access passes its
checks, and which bytes a read and a write see (R61 to R69, R73, R76). -/

namespace Sys2Proof

/-- Page index and page offset put together again (R62). -/
theorem Config.pageIndex_mul_add_pageOffset (c : Config) (a : Nat) :
    c.pageIndex a * c.pageSize + c.pageOffset a = a := by
  rw [Config.pageIndex_eq_div, Config.pageOffset_eq_mod, Nat.div_add_mod']

/-- No other pair of an index and an offset below the page size names the address (R62). -/
theorem Config.split_unique {c : Config} {a p o : Nat} (ho : o < c.pageSize) (h : a = p * c.pageSize + o) :
    p = c.pageIndex a ∧ o = c.pageOffset a := by
  rw [Config.pageIndex_eq_div, Config.pageOffset_eq_mod]
  obtain ⟨hp, ho'⟩ := (Nat.div_mod_unique c.pageSize_pos).mpr
    ⟨show o + c.pageSize * p = a by rw [h, Nat.mul_comm, Nat.add_comm], ho⟩
  exact ⟨hp.symm, ho'.symm⟩

end Sys2Proof

namespace Sys2Proof.Machine

open Sys2Proof.Claims

/-! ## The page array (R61, R62, R76) -/

@[simp] theorem length_pageBytes (s : State) (p : Nat) : (pageBytes s p).length = s.cfg.pageSize := by
  simp [pageBytes]

theorem getElem?_pageBytes {s : State} {p o : Nat} (h : o < s.cfg.pageSize) :
    (pageBytes s p)[o]? = some (s.mem.byte (p * s.cfg.pageSize + o)) := by
  simp [pageBytes, h]

@[simp] theorem length_memoryBuffer (s : State) : (memoryBuffer s).length = s.cfg.numPages := by
  simp [memoryBuffer]

theorem getElem?_memoryBuffer {s : State} {p : Nat} (h : p < s.cfg.numPages) :
    (memoryBuffer s)[p]? = some (pageBytes s p) := by
  simp [memoryBuffer, h]

/-- Settles O56: entry p of the array is `pageBytes s p`. -/
theorem memoryBufferShowsEveryByte : Obligations.MemoryBufferShowsEveryByte :=
  fun s => ⟨length_memoryBuffer s, fun p hp =>
    ⟨_, getElem?_memoryBuffer hp, length_pageBytes s p, fun _ ho => getElem?_pageBytes ho⟩⟩

/-- The page array holds every backed byte at its page and offset (R62). -/
theorem memoryBuffer_of_lt_span {s : State} {a : Nat} (h : a < s.cfg.span) :
    ((memoryBuffer s)[s.cfg.pageIndex a]?.bind fun page => page[s.cfg.pageOffset a]?) = some (s.mem.byte a) := by
  have hp : s.cfg.pageIndex a < s.cfg.numPages := by
    rw [← Nat.not_le, Config.numPages_le_pageIndex]; omega
  rw [getElem?_memoryBuffer hp, Option.bind_some, getElem?_pageBytes (s.cfg.pageOffset_lt a),
    Config.pageIndex_mul_add_pageOffset]

/-- Settles O8: quotient and remainder by the page size, and checks that do not look at the access kind. -/
theorem addressSplitIsUnique : Obligations.AddressSplitIsUnique :=
  fun s a => ⟨(s.cfg.pageIndex_mul_add_pageOffset a).symm, s.cfg.pageOffset_lt a, fun _ _ => Config.split_unique,
    memoryBuffer_of_lt_span, fun _ _ _ => accessFault_kind⟩

/-! ## The three cases of an access (R63, R64, R67) -/

theorem memRead_error_iff {c : Config} {m : Memory} {a : Nat} {w : Width} {k : AccessKind} {f : FaultRecord} :
    memRead c m a w k = .error f ↔ accessFault c a w k = some f := by
  cases h : accessFault c a w k <;> simp [memRead, h]

theorem memWrite_error_iff {c : Config} {m : Memory} {a : Nat} {w : Width} {k : AccessKind} {v : Word}
    {f : FaultRecord} : memWrite c m a w k v = .error f ↔ accessFault c a w k = some f :=
  ⟨memWrite_error, memWrite_eq_error⟩

theorem outOfRange_iff {c : Config} {a : Nat} : OutOfRange c a ↔ c.span ≤ a := by
  rw [OutOfRange, ← Config.pageIndex_eq_div, Config.numPages_le_pageIndex]

theorem accessFault_outOfRange_iff {c : Config} {a : Nat} {w : Width} {k : AccessKind} :
    accessFault c a w k = some (.memOutOfRange a w k) ↔ c.span ≤ a := by
  rw [accessFault_eq]
  split
  next h => simp [h]
  next h => split <;> simp [h]

theorem accessFault_of_outOfRange {c : Config} {a : Nat} {w : Width} {k : AccessKind} (h : OutOfRange c a) :
    accessFault c a w k = some (.memOutOfRange a w k) :=
  accessFault_outOfRange_iff.mpr (outOfRange_iff.mp h)

theorem accessFault_of_crosses {c : Config} {a : Nat} {w : Width} {k : AccessKind} (h : Crosses c a w.bytes) :
    accessFault c a w k = some (.memCrossPage a w k) := by
  rw [accessFault_eq, if_neg (outOfRange_iff.not.mp h.1), if_pos h.2]

theorem passes_iff {c : Config} {a : Nat} {w : Width} {k : AccessKind} :
    Passes c a w.bytes ↔ accessFault c a w k = none := by
  rw [Passes, outOfRange_iff, accessFault_none, Nat.not_le]

/-- Settles O9: the first of the two checks is `span ≤ a`, and the record is the same for both accessors. -/
theorem unbackedAccessIsOutOfRange : Obligations.UnbackedAccessIsOutOfRange := by
  intro c m a w k v
  simp only [Ne, memRead_error_iff, memWrite_error_iff, accessFault_outOfRange_iff, and_self, Nat.not_le]
  exact ⟨c.numPages_le_pageIndex a, id, id⟩

/-- An access inside one that passes its checks passes them too (R64). -/
theorem accessFault_inner {c : Config} {a i : Nat} {w w' : Width} {k k' : AccessKind}
    (h : accessFault c a w k = none) (hi : i + w'.bytes ≤ w.bytes) : accessFault c (a + i) w' k' = none := by
  have hspan := access_below_span h
  have hpage := (accessFault_none.mp h).2
  have hpos := w'.bytes_pos
  have hmod : (a + i) % c.pageSize = a % c.pageSize + i := by
    rw [Nat.add_mod, Nat.mod_eq_of_lt (b := c.pageSize) (a := i) (by omega), Nat.mod_eq_of_lt (by omega)]
  exact accessFault_none.mpr ⟨by omega, by omega⟩

/-! ## Little-endian numbers and their bytes (R65, R66, R68) -/

theorem littleEndianValue_lt (m : Memory) (a n : Nat) : littleEndianValue m a n < 256 ^ n := by
  induction n generalizing a with
  | zero => simp [littleEndianValue]
  | succ n ih =>
    have hb := (m.byte a).isLt
    have hn := ih (a + 1)
    rw [littleEndianValue, Nat.pow_succ]
    omega

/-- Byte `i` of the number is the byte at `a + i`. -/
theorem littleEndianValue_digit {m : Memory} {n i : Nat} (a : Nat) (h : i < n) :
    littleEndianValue m a n / 256 ^ i % 256 = (m.byte (a + i)).toNat := by
  induction n generalizing a i with
  | zero => omega
  | succ n ih =>
    have hb := (m.byte a).isLt
    cases i with
    | zero => simp only [littleEndianValue, Nat.pow_zero, Nat.add_zero]; omega
    | succ i =>
      have hdiv : littleEndianValue m a (n + 1) / 256 = littleEndianValue m (a + 1) n := by
        rw [littleEndianValue]; omega
      rw [Nat.pow_succ', ← Nat.div_div_eq_div_mul, hdiv, ih (a + 1) (by omega), Nat.add_right_comm, Nat.add_assoc]

/-- Bytes that are the bytes of `x` make up `x`, as far as they reach. -/
theorem littleEndianValue_of_digits {m : Memory} {a n x : Nat}
    (h : ∀ i, i < n → (m.byte (a + i)).toNat = x / 256 ^ i % 256) : littleEndianValue m a n = x % 256 ^ n := by
  induction n generalizing a x with
  | zero => simp [littleEndianValue, Nat.mod_one]
  | succ n ih =>
    have h0 : (m.byte a).toNat = x % 256 := by simpa using h 0 (by omega)
    have htail : littleEndianValue m (a + 1) n = x / 256 % 256 ^ n := ih fun i hi => by
      rw [Nat.div_div_eq_div_mul, ← Nat.pow_succ', ← h (i + 1) (by omega), Nat.add_assoc, Nat.add_comm 1]
    rw [littleEndianValue, h0, htail, Nat.pow_succ', Nat.mod_mul]

/-- A read gives the little-endian number of its bytes (R65). -/
theorem Memory.readLE_toNat_eq_littleEndianValue (m : Memory) (a : Nat) (w : Width) :
    (m.readLE a w).toNat = littleEndianValue m a w.bytes := by
  rw [Memory.readLE_toNat]
  cases w <;> simp only [Width.bytes, littleEndianValue, Nat.add_assoc, Nat.reduceAdd] <;> omega

/-- Reading a part of what was written gives that part of the value (R69). -/
theorem Memory.readLE_writeLE_toNat {m : Memory} (hm : m.wf) {w w' : Width} {i : Nat} (a : Nat) (v : Word)
    (hi : i + w'.bytes ≤ w.bytes) :
    ((m.writeLE a v w).readLE (a + i) w').toNat = v.toNat / 256 ^ i % 256 ^ w'.bytes := by
  rw [Memory.readLE_toNat_eq_littleEndianValue]
  refine littleEndianValue_of_digits fun j hj => ?_
  rw [Memory.byte_writeLE hm, if_pos ⟨by omega, by omega⟩, byteOfWord_toNat, Nat.div_div_eq_div_mul,
    ← Nat.pow_add]
  congr 3
  omega

/-! ## MemRead and MemWrite on the page array (R65 to R67) -/

/-- Settles O10: the three cases of `accessFault`, and the bytes of a little-endian number. -/
theorem readReturnsPageBytes : Obligations.ReadReturnsPageBytes := by
  refine fun c m a w k => ⟨fun h => memRead_eq_error (accessFault_of_outOfRange h),
    fun h => memRead_eq_error (accessFault_of_crosses h), fun h =>
    ⟨_, memRead_eq_ok (passes_iff.mp h), fun i hi => ?_, ?_⟩⟩
  · rw [m.readLE_toNat_eq_littleEndianValue, littleEndianValue_digit a hi, ← Nat.add_assoc,
      Config.pageIndex_mul_add_pageOffset]
  · rw [m.readLE_toNat_eq_littleEndianValue]
    exact littleEndianValue_lt m a w.bytes

/-- The bytes of an access that does not cross its page's end, by page and offset (R62, R64). -/
theorem mem_access_iff {c : Config} {a n p o : Nat} (h : Passes c a n) (ho : o < c.pageSize) :
    (a ≤ p * c.pageSize + o ∧ p * c.pageSize + o < a + n) ↔
      p = c.pageIndex a ∧ c.pageOffset a ≤ o ∧ o < c.pageOffset a + n := by
  have ha := c.pageIndex_mul_add_pageOffset a
  have hpage : c.pageOffset a + n ≤ c.pageSize := c.pageOffset_eq_mod a ▸ h.2
  constructor
  · rintro ⟨hlo, hhi⟩
    have hp := (Config.split_unique (a := p * c.pageSize + o) ho rfl).1
    have hq := (Config.split_unique (c := c) (a := p * c.pageSize + o) (p := c.pageIndex a)
      (o := c.pageOffset a + (p * c.pageSize + o - a)) (by omega) (by omega)).1
    obtain rfl : p = c.pageIndex a := hp.trans hq.symm
    omega
  · rintro ⟨rfl, hlo, hhi⟩
    omega

/-- Settles O11: the three cases of `accessFault`, and `byte_writeLE` told by page and offset. -/
theorem writeSetsPageBytes : Obligations.WriteSetsPageBytes := by
  refine fun c m a w k v hm => ⟨fun h => memWrite_eq_error (accessFault_of_outOfRange h),
    fun h => memWrite_eq_error (accessFault_of_crosses h), fun h =>
    ⟨_, memWrite_eq_ok (passes_iff.mp h), Memory.writeLE_wf hm a v w, fun p o ho => ?_⟩⟩
  simp only [Memory.byte_writeLE hm, mem_access_iff h ho]
  split
  next hin =>
    have ha := c.pageIndex_mul_add_pageOffset a
    rw [byteOfWord_toNat, hin.1, show c.pageIndex a * c.pageSize + o - a = o - c.pageOffset a by omega]
  · rfl

/-- A read that succeeds gives the little-endian number of its bytes (R65, R68). -/
theorem memRead_toNat {c : Config} {m : Memory} {a : Nat} {w : Width} {k : AccessKind} {v : Word}
    (h : memRead c m a w k = .ok v) : v.toNat = littleEndianValue m a w.bytes := by
  unfold memRead at h
  split at h
  · cases h
  · rw [← Except.ok.inj h, Memory.readLE_toNat_eq_littleEndianValue]

/-- Settles O12: a fetch is a read of a word, and a write is read back at its own width. -/
theorem littleEndianAtEveryWidth : Obligations.LittleEndianAtEveryWidth := by
  refine ⟨fun _ _ _ _ _ _ => memRead_toNat, fun c m a w k v m' hm h => ?_, fun _ _ => memRead_toNat (w := .word)⟩
  obtain ⟨-, rfl⟩ := memWrite_ok h
  simpa [Memory.readLE_toNat_eq_littleEndianValue] using
    Memory.readLE_writeLE_toNat hm (w' := w) (i := 0) a v (Nat.le_of_eq (Nat.zero_add _))

/-- A read inside a word just written: it passes its checks and gives those bits (R69). -/
theorem memRead_inside_word {c : Config} {m m' : Memory} {a i : Nat} {w : Width} {k k' : AccessKind} {v : Word}
    (hm : m.wf) (h : memWrite c m a .word k v = .ok m') (hi : i + w.bytes ≤ 4) :
    memRead c m' (a + i) w k' = .ok ((v.extractLsb' (8 * i) (8 * w.bytes)).setWidth 32) := by
  obtain ⟨h0, rfl⟩ := memWrite_ok h
  rw [memRead_eq_ok (accessFault_inner h0 hi)]
  congr 1
  apply BitVec.eq_of_toNat_eq
  have hw : 2 ^ (8 * w.bytes) ≤ 2 ^ 32 := Nat.pow_le_pow_right (by decide) (by omega)
  rw [Memory.readLE_writeLE_toNat hm a v hi, BitVec.toNat_setWidth, BitVec.extractLsb'_toNat,
    Nat.mod_eq_of_lt ((Nat.mod_lt _ (Nat.two_pow_pos _)).trans_le hw), Nat.shiftRight_eq_div_pow, Nat.pow_mul,
    Nat.pow_mul]

/-- Settles O13: each read is a part of the word (`memRead_inside_word`) or the whole of it. -/
theorem mixedWidthReadsSeeOneArray : Obligations.MixedWidthReadsSeeOneArray := by
  intro c m m' a v hm h
  refine ⟨fun i hi => memRead_inside_word hm h hi, memRead_inside_word (i := 0) hm h (by decide),
    memRead_inside_word hm h (by decide), ?_⟩
  obtain ⟨h0, rfl⟩ := memWrite_ok h
  rw [memRead_eq_ok (accessFault_kind h0), Memory.readLE_writeLE_word hm]

end Sys2Proof.Machine
end

section
/-! Memory along a step: which bytes a step can change, a stored word as the next instruction, and a core that runs into
memory nothing has written (R66, R73, R74, R80, R243). -/

namespace Sys2Proof.Machine

open Sys2Proof.Claims

/-- Executing an instruction changes no byte but those of its own store, all of them backed (R66, R73). -/
theorem ExecCase.byte_changed {i : Instr} {s t : State} (c : ExecCase i s t) (hm : s.mem.wf) {b : Nat}
    (hb : t.mem.byte b ≠ s.mem.byte b) :
    ∃ a w, memoryAccess i s = some (a, w, .store) ∧ a ≤ b ∧ b < a + w.bytes ∧ b < s.cfg.span := by
  cases c with
  | faults f h e => exact absurd (e ▸ rfl) hb
  | halted h e => exact absurd (e ▸ rfl) hb
  | completes ok h shell x0 regs mem =>
    obtain hkept | ⟨a, w, v, ha, hstored⟩ := mem
    · exact absurd (hkept ▸ rfl) hb
    · have hin : a ≤ b ∧ b < a + w.bytes := by
        by_contra hout
        exact hb (by rw [hstored, Memory.byte_writeLE hm, if_neg hout])
      have hspan := access_below_span ((instrFault_of_memoryAccess ha).symm.trans ok)
      exact ⟨a, w, ha, hin.1, hin.2, hin.2.trans_le hspan⟩

/-- Settles O42: of the ways a step can go (`step_cases`) only executing an instruction changes memory. -/
theorem onlyStoresChangeMemory : Obligations.OnlyStoresChangeMemory := by
  intro s t hm ht b hb
  cases step_cases ht with
  | stands _ e => exact absurd (e ▸ rfl) hb
  | fetchFault f _ _ e => exact absurd (e ▸ rfl) hb
  | decodeFault w f _ _ _ e => exact absurd (e ▸ rfl) hb
  | runs w i run h d _ c =>
    obtain ⟨a, wd, ha, hab, hba, hspan⟩ := c.byte_changed hm hb
    exact ⟨run, w, i, a, wd, h, d, memoryAccess_latch i s w ▸ ha, hab, hba, hspan⟩

/-- The effective address as the number of R150. -/
theorem effectiveAddress_toNat (s : State) (rs1 : RegIdx) (imm : BitVec 12) :
    (effectiveAddress s rs1 imm).toNat = effective s rs1 imm := by
  rw [effectiveAddress, imm12Word, BitVec.signExtend, BitVec.toNat_add, BitVec.toNat_ofInt, effective]
  omega

theorem storeAddress_eq_effective (s : State) (rs1 : RegIdx) (imm : BitVec 12) :
    storeAddress s rs1 imm = effective s rs1 imm :=
  effectiveAddress_toNat s rs1 imm

/-- A step that runs a SW whose access passes (R46, R160). -/
theorem step_of_sw {s : State} {w : Word} {rs2 rs1 : RegIdx} {imm : BitVec 12} (run : s.status = .running)
    (h : fetch s = .ok w) (d : decode w = .instr (.sw rs2 rs1 imm))
    (ok : accessFault s.cfg (storeAddress s rs1 imm) .word .store = none) :
    ∃ t, step s = .next t ∧ t.mem = s.mem.writeLE (storeAddress s rs1 imm) (s.reg rs2) .word ∧ t.pc = s.pc + 4 ∧
      SameRegs s t ∧ t.cfg = s.cfg ∧ t.status = .running :=
  ⟨_, (step_of_decode_instr run h d).trans (store_ok (s := latch w s) ok), rfl, rfl, fun _ => rfl, rfl, run⟩

/-- A fetch at the address of a word just stored (R68, R80). -/
theorem fetch_of_stored {t : State} {m : Memory} {v : Word} (hm : m.wf)
    (ok : accessFault t.cfg t.pc.toNat .word .fetch = none) (h : t.mem = m.writeLE t.pc.toNat v .word) :
    fetch t = .ok v := by
  rw [fetch, memRead_eq_ok ok, h, Memory.readLE_writeLE_word hm]

/-- Settles O45: the store leaves the pc at its own address, where the fetch reads the stored word back. -/
theorem storeIsSeenByNextFetch : Obligations.StoreIsSeenByNextFetch := by
  intro s w rs2 rs1 imm i hm run h d heff hpass di
  have haddr : storeAddress s rs1 imm = (s.pc + 4).toNat := (storeAddress_eq_effective s rs1 imm).trans heff
  have hok : ∀ k, accessFault s.cfg (s.pc + 4).toNat .word k = none := fun _ => passes_iff.mp (heff ▸ hpass)
  obtain ⟨t, ht, hmem, hpc, hregs, hcfg, hrun⟩ := step_of_sw run h d (haddr ▸ hok .store)
  have hfetch : fetch t = .ok (s.reg rs2) :=
    fetch_of_stored hm (by rw [hcfg, hpc, hok]) (by rw [hmem, haddr, hpc])
  exact ⟨t, latch (s.reg rs2) t, ht, hfetch, step_of_decode_instr hrun hfetch di, hpc, hregs, rfl⟩

@[simp] theorem Memory.readLE_nil_word (a : Nat) : Memory.readLE [] a .word = 0 := by
  simp only [Memory.readLE, Memory.byte_nil]
  decide

/-- Every fetch that passes its checks in a memory that lists no byte gives the zero word (R74, D28). -/
theorem fetch_of_mem_nil {s : State} (hm : s.mem = []) (h : Passes s.cfg s.pc.toNat 4) : fetch s = .ok 0 := by
  rw [fetch, memRead_eq_ok (passes_iff (w := .word).mp h), hm, Memory.readLE_nil_word]

/-- Settles O47: the zero word decodes to a halting instruction (R243). -/
theorem neverWrittenMemoryHalts : Obligations.NeverWrittenMemoryHalts := by
  intro s run hm h
  have hdecode : decode 0 = .instr (.zeroHalt 0) := by decide
  exact ⟨_, step_of_decode_instr run (fetch_of_mem_nil hm h) hdecode, rfl, rfl, rfl, hm, rfl⟩

end Sys2Proof.Machine
end

section
/-! The host's image loading: which bytes `load_image` writes, which fault ends it, and the invariant under the host
operations (R75, R276). -/

namespace Sys2Proof.Machine

/-! ## The byte writes (R75, D37) -/

theorem loadBytes_cons_of_lt {c : Config} {m : Memory} {a : Nat} {b : Byte} {bs : List Byte} (h : a < c.span) :
    loadBytes c m a (b :: bs) = loadBytes c (m.writeLE a (b.setWidth 32) .byte) (a + 1) bs := by
  have h0 : accessFault c a .byte .image = none := by rw [accessFault_byte, if_neg (by omega)]
  rw [loadBytes, memWrite_eq_ok h0]

theorem loadBytes_cons_of_span_le {c : Config} {m : Memory} {a : Nat} {b : Byte} {bs : List Byte} (h : c.span ≤ a) :
    loadBytes c m a (b :: bs) = (m, some (.memOutOfRange a .byte .image)) := by
  have h0 : accessFault c a .byte .image = some (.memOutOfRange a .byte .image) := by rw [accessFault_byte, if_pos h]
  rw [loadBytes, memWrite_eq_error h0]

/-- The fault is that of the first byte beyond the room below the span. -/
theorem loadBytes_fault (c : Config) (m : Memory) (a : Nat) (bytes : List Byte) :
    (loadBytes c m a bytes).2 =
      if bytes.length ≤ c.span - a then none else some (.memOutOfRange (a + (c.span - a)) .byte .image) := by
  induction bytes generalizing m a with
  | nil => simp [loadBytes]
  | cons b bs ih =>
    by_cases h : a < c.span
    · have hlen : (bs.length ≤ c.span - (a + 1)) = ((b :: bs).length ≤ c.span - a) := by
        rw [List.length_cons, eq_iff_iff]; omega
      rw [loadBytes_cons_of_lt h, ih]
      simp only [hlen, show a + 1 + (c.span - (a + 1)) = a + (c.span - a) by omega]
    · rw [loadBytes_cons_of_span_le (by omega), if_neg (by rw [List.length_cons]; omega),
        show a + (c.span - a) = a by omega]

/-- A byte before the offset or behind the last byte written is as before. -/
theorem loadBytes_byte_other {c : Config} {m : Memory} {a x : Nat} {bytes : List Byte} (hm : m.wf)
    (hx : x < a ∨ a + min bytes.length (c.span - a) ≤ x) : (loadBytes c m a bytes).1.byte x = m.byte x := by
  induction bytes generalizing m a with
  | nil => rfl
  | cons b bs ih =>
    rw [List.length_cons] at hx
    by_cases h : a < c.span
    · rw [loadBytes_cons_of_lt h, ih (Memory.writeLE_wf hm _ _ _) (by omega), Memory.byte_writeLE hm,
        if_neg (by simp only [Width.bytes]; omega)]
    · rw [loadBytes_cons_of_span_le (by omega)]

theorem byteOfWord_setWidth (b : Byte) : byteOfWord (b.setWidth 32) 0 = b := by
  apply BitVec.eq_of_toNat_eq
  rw [byteOfWord_toNat, BitVec.toNat_setWidth]
  omega

/-- A byte that fits below the span stands at its place. -/
theorem loadBytes_byte_written {c : Config} {m : Memory} {a i : Nat} {b : Byte} {bytes : List Byte} (hm : m.wf)
    (hi : i < c.span - a) (hb : bytes[i]? = some b) : (loadBytes c m a bytes).1.byte (a + i) = b := by
  induction bytes generalizing m a i with
  | nil => cases hb
  | cons b' bs ih =>
    have hm' := Memory.writeLE_wf hm a (b'.setWidth 32) .byte
    rw [loadBytes_cons_of_lt (by omega)]
    cases i with
    | zero =>
      obtain rfl : b' = b := by simpa using hb
      rw [loadBytes_byte_other hm' (by omega), Memory.byte_writeLE hm, if_pos ⟨by omega, by simp [Width.bytes]⟩,
        Nat.add_sub_cancel_left, byteOfWord_setWidth]
    | succ i =>
      rw [← ih hm' (a := a + 1) (i := i) (by omega) (by simpa using hb), Nat.add_right_comm, Nat.add_assoc]

/-! ## The host operations (R276) -/

theorem hostRefusal_eq_none {s : State} : hostRefusal s = none ↔ s.status = .idle ∨ s.status = .halted := by
  unfold hostRefusal
  cases s.status <;> simp

/-- `load_image` in Idle or Halted: the byte writes, and their fault, if any, as the status (R75). -/
theorem loadImage_eq {s : State} {offset : Word} {bytes : List Byte} {m : Memory} {o : Option FaultRecord}
    (hs : s.status = .idle ∨ s.status = .halted) (h : loadBytes s.cfg s.mem offset.toNat bytes = (m, o)) :
    loadImage offset bytes s = .next ((s.setMem m).setStatus (o.elim s.status .faulted)) := by
  rw [loadImage, hostRefusal_eq_none.mpr hs, h]
  cases o <;> rfl

/-- Settles O55: memory and fault are those of the byte writes. -/
theorem loadImageWritesInOrder : Obligations.LoadImageWritesInOrder := by
  rintro s offset bytes room hm hs rfl
  have hfault := loadBytes_fault s.cfg s.mem offset.toNat bytes
  refine ⟨_, loadImage_eq hs rfl, fun _ => rfl, rfl, rfl, rfl, rfl, fun i hi b hb => loadBytes_byte_written hm hi hb,
    fun a ha => loadBytes_byte_other hm ha, fun hfits => ?_, fun hlong => ?_⟩
  · rw [State.setStatus_status, hfault, if_pos hfits]; rfl
  · rw [State.setStatus_status, hfault, if_neg (by omega)]; rfl

/-- A canonical memory of backed bytes is all the invariant asks of a new memory (R61, R73). -/
theorem State.Inv.setMem {s : State} (hi : s.Inv) {m : Memory} (hm : m.wf) (hb : ∀ x ∈ m, x.1 < s.cfg.span) :
    (s.setMem m).Inv :=
  { hi with canonical := hm, backed := hb }

/-- Settles O52: the byte writes keep the memory canonical and backed, and their fault is justified. -/
theorem hostOperationsKeepInvariant : Obligations.HostOperationsKeepInvariant := by
  intro s t a bytes hi
  refine ⟨fun h => ?_, fun h => ?_⟩
  · obtain ⟨-, m, ⟨hload, rfl⟩ | ⟨f, hload, rfl⟩⟩ := loadImage_cases h
    all_goals obtain ⟨hwf, hbacked, hfault⟩ := loadBytes_cases hload
    · exact hi.setMem (hwf hi.canonical) (hbacked hi.backed)
    · refine (hi.setMem (hwf hi.canonical) (hbacked hi.backed)).setStatus ?_
      obtain ⟨b, rfl, hb⟩ := hfault f rfl
      exact faultJustified_of_access (k := .image) rfl hb
  · obtain ⟨-, rfl⟩ := startRun_cases h
    exact { hi with status := trivial }

end Sys2Proof.Machine
end

section
/-! The decoder: which words it refuses and how, and that it and the encoder are inverse to each other (R101 to R125,
R240 to R244). -/

namespace Sys2Proof

open Sys2Proof.Machine Sys2Proof.Claims

/-! ## From an instruction to its word and back -/

/-- Bits 31:7 tell the three rows of the SYSTEM opcode apart (R240 to R242). -/
theorem decodeSystem_encodeHalt_other {upper : BitVec 25} (hecall : upper ≠ ecallUpper) (hebreak : upper ≠ ebreakUpper)
    (op : BitVec 7) : decodeSystem (encodeHalt upper op) = .systemOther upper := by
  simp only [decodeSystem, upperField_encodeHalt, if_neg hecall, if_neg hebreak]

/-- Settles O1: each field of the word reads back what was encoded, and the opcode and function fields are constants
that select the constructor's own arm of the decoder. -/
theorem decodeOfEncode : Obligations.DecodeOfEncode := by
  intro i wf
  cases i with
  | lui => simp [encode, decode]
  | jal rd offset => simp [encode, decode, immJField_encodeJ offset rd _ (by simpa [Instr.wellFormed] using wf)]
  | jalr => simp [encode, decode, decodeJalr]
  | beq rs1 rs2 offset | bne rs1 rs2 offset | blt rs1 rs2 offset | bge rs1 rs2 offset | bltu rs1 rs2 offset
  | bgeu rs1 rs2 offset =>
    have even : offset.getLsbD 0 = false := by simpa [Instr.wellFormed] using wf
    simp [encode, decode, decodeBranch, immBField_encodeB offset rs2 rs1 _ _ even]
  | lb | lh | lw | lbu | lhu => simp [encode, decode, decodeLoad]
  | sb | sh | sw => simp [encode, decode, decodeStore]
  | addi | slti | sltiu | xori | ori | andi => simp [encode, decode, decodeOpImm]
  | slli => simp [encode, decode, decodeOpImm, decodeShiftLeftImm]
  | srli | srai => simp [encode, decode, decodeOpImm, decodeShiftRightImm]
  | add | sub | sll | slt | sltu | xor | srl | sra | or | and | mul | mulh | mulhsu | mulhu | div | divu | rem | remu =>
    simp [encode, decode, decodeOp]
  | ecall => decide
  | ebreak => decide
  | systemOther upper =>
    obtain ⟨hecall, hebreak⟩ : upper ≠ ecallUpper ∧ upper ≠ ebreakUpper := by simpa [Instr.wellFormed] using wf
    simp [encode, decode, decodeSystem_encodeHalt_other hecall hebreak]
  | zeroHalt => simp [encode, decode]

/-! ## What a word can decode to, by its opcode (R114) -/

/-- The eleven ways decoding can go: one for each opcode of R114, and the refusal of every other opcode (R122). -/
inductive DecodeCase (w : Word) : Prop where
  | lui (h : opcodeField w = 0x37#7) (d : decode w = .instr (.lui (rdField w) (immUField w)))
  | jal (h : opcodeField w = 0x6F#7) (d : decode w = .instr (.jal (rdField w) (immJField w)))
  | jalr (h : opcodeField w = 0x67#7) (d : decode w = decodeJalr w)
  | branch (h : opcodeField w = 0x63#7) (d : decode w = decodeBranch w)
  | load (h : opcodeField w = 0x03#7) (d : decode w = decodeLoad w)
  | store (h : opcodeField w = 0x23#7) (d : decode w = decodeStore w)
  | opImm (h : opcodeField w = 0x13#7) (d : decode w = decodeOpImm w)
  | op (h : opcodeField w = 0x33#7) (d : decode w = decodeOp w)
  | system (h : opcodeField w = 0x73#7) (d : decode w = .instr (decodeSystem w))
  | zero (h : opcodeField w = 0x00#7) (d : decode w = .instr (.zeroHalt (upperField w)))
  | unnamed (h : opcodeField w ∉ namedOpcodes) (d : decode w = .illegal (.illegalOpcode w (opcodeField w)))

theorem decode_of_system {w : Word} (h : opcodeField w = 0x73#7) : decode w = .instr (decodeSystem w) := by
  simp only [decode, h]

theorem decode_of_zero {w : Word} (h : opcodeField w = 0x00#7) : decode w = .instr (.zeroHalt (upperField w)) := by
  simp only [decode, h]

theorem decode_of_unnamed {w : Word} (h : opcodeField w ∉ namedOpcodes) :
    decode w = .illegal (.illegalOpcode w (opcodeField w)) := by
  unfold decode
  split
  case h_11 => rfl
  all_goals exact absurd (by simp [namedOpcodes, *]) h

theorem decode_cases (w : Word) : DecodeCase w := by
  by_cases named : opcodeField w ∈ namedOpcodes
  · simp only [namedOpcodes, List.mem_cons, List.not_mem_nil, or_false] at named
    obtain h | h | h | h | h | h | h | h | h | h := named
    · exact .lui h (by simp only [decode, h])
    · exact .jal h (by simp only [decode, h])
    · exact .jalr h (by simp only [decode, h])
    · exact .branch h (by simp only [decode, h])
    · exact .load h (by simp only [decode, h])
    · exact .store h (by simp only [decode, h])
    · exact .opImm h (by simp only [decode, h])
    · exact .op h (by simp only [decode, h])
    · exact .system h (decode_of_system h)
    · exact .zero h (decode_of_zero h)
  · exact .unnamed named (decode_of_unnamed named)

/-! ## From a word to its instruction and back -/

/-- An instruction read from `w` is well formed and has the word `w`; a refusal says nothing. -/
def Decoded.Faithful (w : Word) : Decoded → Prop
  | .instr i => i.wellFormed = true ∧ encode i = w
  | .illegal _ => True

section
variable {w : Word} {op : BitVec 7} {f3 : BitVec 3} (hop : opcodeField w = op) (hf3 : funct3Field w = f3)
include hop

theorem encodeU_of_fields : encodeU (immUField w) (rdField w) op = w := by
  subst hop; exact encodeU_fields w

theorem encodeJ_of_fields : encodeJ (immJField w) (rdField w) op = w := by
  subst hop; exact encodeJ_fields w

theorem encodeHalt_of_fields {upper : BitVec 25} (hupper : upperField w = upper) : encodeHalt upper op = w := by
  subst hop hupper; exact encodeHalt_fields w

theorem encodeR_of_key {f7 : BitVec 7} (hkey : keyField w = f7 ++ f3) :
    encodeR f7 (rs2Field w) (rs1Field w) f3 (rdField w) op = w := by
  obtain ⟨h7, h3⟩ := fields_of_keyField hkey
  rw [BitVec.extractLsb'_append_eq_left] at h7
  rw [BitVec.extractLsb'_append_eq_right] at h3
  subst hop h7 h3
  exact encodeR_fields w

include hf3

theorem encodeI_of_fields : encodeI (immIField w) (rs1Field w) f3 (rdField w) op = w := by
  subst hop hf3; exact encodeI_fields w

theorem encodeS_of_fields : encodeS (immSField w) (rs2Field w) (rs1Field w) f3 op = w := by
  subst hop hf3; exact encodeS_fields w

theorem encodeB_of_fields : encodeB (immBField w) (rs2Field w) (rs1Field w) f3 op = w := by
  subst hop hf3; exact encodeB_fields w

theorem encodeShift_of_fields {f7 : BitVec 7} (hf7 : funct7Field w = f7) :
    encodeShift f7 (shamtField w) (rs1Field w) f3 (rdField w) op = w := by
  subst hop hf3 hf7; exact encodeShift_fields w

end

section
variable {w : Word}

theorem decodeJalr_faithful (h : opcodeField w = 0x67#7) : (decodeJalr w).Faithful w := by
  unfold decodeJalr
  split
  case h_1 hf3 => exact ⟨rfl, encodeI_of_fields h hf3⟩
  case h_2 => trivial

theorem decodeBranch_faithful (h : opcodeField w = 0x63#7) : (decodeBranch w).Faithful w := by
  unfold decodeBranch
  split
  case h_7 => trivial
  all_goals exact ⟨congrArg not (immBField_even w), encodeB_of_fields h ‹_›⟩

theorem decodeLoad_faithful (h : opcodeField w = 0x03#7) : (decodeLoad w).Faithful w := by
  unfold decodeLoad
  split
  case h_6 => trivial
  all_goals exact ⟨rfl, encodeI_of_fields h ‹_›⟩

theorem decodeStore_faithful (h : opcodeField w = 0x23#7) : (decodeStore w).Faithful w := by
  unfold decodeStore
  split
  case h_4 => trivial
  all_goals exact ⟨rfl, encodeS_of_fields h ‹_›⟩

theorem decodeShiftLeftImm_faithful (h : opcodeField w = 0x13#7) (hf3 : funct3Field w = 1#3) :
    (decodeShiftLeftImm w).Faithful w := by
  unfold decodeShiftLeftImm
  split
  case h_1 hf7 => exact ⟨rfl, encodeShift_of_fields h hf3 hf7⟩
  case h_2 => trivial

theorem decodeShiftRightImm_faithful (h : opcodeField w = 0x13#7) (hf3 : funct3Field w = 5#3) :
    (decodeShiftRightImm w).Faithful w := by
  unfold decodeShiftRightImm
  split
  case h_3 => trivial
  all_goals exact ⟨rfl, encodeShift_of_fields h hf3 ‹_›⟩

/-- Three bits have eight values. -/
theorem funct3_cases (x : BitVec 3) :
    x = 0#3 ∨ x = 1#3 ∨ x = 2#3 ∨ x = 3#3 ∨ x = 4#3 ∨ x = 5#3 ∨ x = 6#3 ∨ x = 7#3 := by
  decide +revert

theorem decodeOpImm_faithful (h : opcodeField w = 0x13#7) : (decodeOpImm w).Faithful w := by
  unfold decodeOpImm
  split
  case h_2 hf3 => exact decodeShiftLeftImm_faithful h hf3
  case h_6 hf3 => exact decodeShiftRightImm_faithful h hf3
  case h_8 h0 h1 h2 h3 h4 h5 h6 =>
    have hf3 : funct3Field w = 7#3 := by
      have hcases := funct3_cases (funct3Field w)
      tauto
    exact ⟨rfl, encodeI_of_fields h hf3⟩
  all_goals exact ⟨rfl, encodeI_of_fields h ‹_›⟩

theorem decodeOp_faithful (h : opcodeField w = 0x33#7) : (decodeOp w).Faithful w := by
  unfold decodeOp
  split
  case h_19 => trivial
  all_goals exact ⟨rfl, encodeR_of_key h ‹_›⟩

theorem decodeSystem_faithful (h : opcodeField w = 0x73#7) : (Decoded.instr (decodeSystem w)).Faithful w := by
  unfold decodeSystem
  split
  case isTrue hecall => exact ⟨rfl, encodeHalt_of_fields h hecall⟩
  case isFalse hecall =>
    split
    case isTrue hebreak => exact ⟨rfl, encodeHalt_of_fields h hebreak⟩
    case isFalse hebreak => exact ⟨by simp [Instr.wellFormed, hecall, hebreak], encodeHalt_of_fields h rfl⟩

end

theorem decode_faithful (w : Word) : (decode w).Faithful w := by
  cases decode_cases w with
  | lui h d => rw [d]; exact ⟨rfl, encodeU_of_fields h⟩
  | jal h d => rw [d]; exact ⟨congrArg not (immJField_even w), encodeJ_of_fields h⟩
  | jalr h d => rw [d]; exact decodeJalr_faithful h
  | branch h d => rw [d]; exact decodeBranch_faithful h
  | load h d => rw [d]; exact decodeLoad_faithful h
  | store h d => rw [d]; exact decodeStore_faithful h
  | opImm h d => rw [d]; exact decodeOpImm_faithful h
  | op h d => rw [d]; exact decodeOp_faithful h
  | system h d => rw [d]; exact decodeSystem_faithful h
  | zero h d => rw [d]; exact ⟨rfl, encodeHalt_of_fields h rfl⟩
  | unnamed _ d => rw [d]; trivial

/-- Settles O2: each arm of the decoder fixes the opcode and function fields that the encoder puts back. -/
theorem encodeOfDecode : Obligations.EncodeOfDecode := by
  intro w i h
  have hw := decode_faithful w
  rwa [h] at hw

/-! ## The words no row has (R114 to R120, R122, R124) -/

section
variable {w : Word} {f : FaultRecord}

theorem decodeJalr_eq_illegal_iff : decodeJalr w = .illegal f ↔
    funct3Field w ≠ 0#3 ∧ f = .illegalFunct3 w (opcodeField w) (funct3Field w) := by
  unfold decodeJalr illegalFunct3
  split
  case h_1 hf3 => simp [hf3]
  case h_2 hf3 => simp_all [eq_comm]

theorem decodeBranch_eq_illegal_iff : decodeBranch w = .illegal f ↔
    funct3Field w ∈ [2#3, 3#3] ∧ f = .illegalFunct3 w (opcodeField w) (funct3Field w) := by
  obtain h | h | h | h | h | h | h | h := funct3_cases (funct3Field w) <;>
    simp [decodeBranch, illegalFunct3, h, eq_comm]

theorem decodeLoad_eq_illegal_iff : decodeLoad w = .illegal f ↔
    funct3Field w ∈ [3#3, 6#3, 7#3] ∧ f = .illegalFunct3 w (opcodeField w) (funct3Field w) := by
  obtain h | h | h | h | h | h | h | h := funct3_cases (funct3Field w) <;>
    simp [decodeLoad, illegalFunct3, h, eq_comm]

theorem decodeStore_eq_illegal_iff : decodeStore w = .illegal f ↔
    funct3Field w ∈ [3#3, 4#3, 5#3, 6#3, 7#3] ∧ f = .illegalFunct3 w (opcodeField w) (funct3Field w) := by
  obtain h | h | h | h | h | h | h | h := funct3_cases (funct3Field w) <;>
    simp [decodeStore, illegalFunct3, h, eq_comm]

theorem decodeShiftLeftImm_eq_illegal_iff : decodeShiftLeftImm w = .illegal f ↔
    funct7Field w ≠ 0#7 ∧ f = .illegalShiftImm w (funct3Field w) (funct7Field w) := by
  unfold decodeShiftLeftImm illegalShiftImm
  split
  case h_1 hf7 => simp [hf7]
  case h_2 hf7 => simp_all [eq_comm]

theorem decodeShiftRightImm_eq_illegal_iff : decodeShiftRightImm w = .illegal f ↔
    (funct7Field w ≠ 0#7 ∧ funct7Field w ≠ 0x20#7) ∧
      f = .illegalShiftImm w (funct3Field w) (funct7Field w) := by
  unfold decodeShiftRightImm illegalShiftImm
  split
  case h_1 hf7 => simp [hf7]
  case h_2 hf7 => simp [hf7]
  case h_3 hf7 => simp_all [eq_comm]

theorem decodeOpImm_eq_illegal_iff : decodeOpImm w = .illegal f ↔
    ((funct3Field w = 1#3 ∧ funct7Field w ≠ 0#7) ∨
      (funct3Field w = 5#3 ∧ funct7Field w ≠ 0#7 ∧ funct7Field w ≠ 0x20#7)) ∧
    f = .illegalShiftImm w (funct3Field w) (funct7Field w) := by
  obtain h | h | h | h | h | h | h | h := funct3_cases (funct3Field w) <;>
    simp [decodeOpImm, h, decodeShiftLeftImm_eq_illegal_iff, decodeShiftRightImm_eq_illegal_iff]

theorem decodeOp_eq_illegal_iff : decodeOp w = .illegal f ↔
    keyField w ∉ mappedKeys ∧ f = .illegalRKey w (keyField w) := by
  unfold decodeOp
  split
  case h_19 => simp_all [mappedKeys, eq_comm]
  all_goals simp_all [mappedKeys]

end

/-- An unmapped funct3 of LOAD, STORE, BRANCH or JALR (R115 to R117, R120). -/
def UnmappedFunct3 (w : Word) : Prop :=
  (opcodeField w = 0x03#7 ∧ funct3Field w ∈ [3#3, 6#3, 7#3]) ∨
  (opcodeField w = 0x23#7 ∧ funct3Field w ∈ [3#3, 4#3, 5#3, 6#3, 7#3]) ∨
  (opcodeField w = 0x63#7 ∧ funct3Field w ∈ [2#3, 3#3]) ∨
  (opcodeField w = 0x67#7 ∧ funct3Field w ≠ 0#3)

/-- Unmapped upper bits of an OP-IMM shift (R118). -/
def UnmappedShift (w : Word) : Prop :=
  opcodeField w = 0x13#7 ∧
    ((funct3Field w = 1#3 ∧ funct7Field w ≠ 0#7) ∨
     (funct3Field w = 5#3 ∧ funct7Field w ≠ 0#7 ∧ funct7Field w ≠ 0x20#7))

/-- An unmapped composite key of OP (R119). -/
def UnmappedKey (w : Word) : Prop := opcodeField w = 0x33#7 ∧ keyField w ∉ mappedKeys

/-- Exactly the words that do not decode, with the one record each gives (R124). -/
theorem decode_eq_illegal_iff {w : Word} {f : FaultRecord} : decode w = .illegal f ↔
    (opcodeField w ∉ namedOpcodes ∧ f = .illegalOpcode w (opcodeField w)) ∨
    (UnmappedFunct3 w ∧ f = .illegalFunct3 w (opcodeField w) (funct3Field w)) ∨
    (UnmappedShift w ∧ f = .illegalShiftImm w (funct3Field w) (funct7Field w)) ∨
    (UnmappedKey w ∧ f = .illegalRKey w (keyField w)) := by
  unfold UnmappedFunct3 UnmappedShift UnmappedKey
  cases decode_cases w with
  | lui h d | jal h d | system h d | zero h d => simp [d, h, namedOpcodes]
  | jalr h d => simp [d, decodeJalr_eq_illegal_iff, h, namedOpcodes]
  | branch h d => simp [d, decodeBranch_eq_illegal_iff, h, namedOpcodes]
  | load h d => simp [d, decodeLoad_eq_illegal_iff, h, namedOpcodes]
  | store h d => simp [d, decodeStore_eq_illegal_iff, h, namedOpcodes]
  | opImm h d => simp [d, decodeOpImm_eq_illegal_iff, h, namedOpcodes]
  | op h d => simp [d, decodeOp_eq_illegal_iff, h, namedOpcodes]
  | unnamed h d => simp_all [namedOpcodes, eq_comm]

section
variable {w : Word}

theorem decode_eq_illegalOpcode_iff {v : Word} {op : BitVec 7} : decode w = .illegal (.illegalOpcode v op) ↔
    opcodeField w ∉ namedOpcodes ∧ v = w ∧ op = opcodeField w := by
  simp [decode_eq_illegal_iff]

theorem decode_eq_illegalFunct3_iff :
    decode w = .illegal (.illegalFunct3 w (opcodeField w) (funct3Field w)) ↔ UnmappedFunct3 w := by
  simp [decode_eq_illegal_iff]

theorem decode_eq_illegalShiftImm_iff :
    decode w = .illegal (.illegalShiftImm w (funct3Field w) (funct7Field w)) ↔ UnmappedShift w := by
  simp [decode_eq_illegal_iff]

theorem decode_eq_illegalRKey_iff : decode w = .illegal (.illegalRKey w (keyField w)) ↔ UnmappedKey w := by
  simp [decode_eq_illegal_iff]

end

/-- Settles O4: of the four ways a word can fail to decode only the first is IllegalOpcode. -/
theorem unnamedOpcodeIsIllegal : Obligations.UnnamedOpcodeIsIllegal := fun _ =>
  ⟨⟨fun h => decode_eq_illegalOpcode_iff.mpr ⟨h, rfl, rfl⟩, fun d => (decode_eq_illegalOpcode_iff.mp d).1⟩,
    fun _ _ d => (decode_eq_illegalOpcode_iff.mp d).2⟩

/-- Settles O5: the other three ways, each with its own record. -/
theorem unmappedFunctionFieldsAreIllegal : Obligations.UnmappedFunctionFieldsAreIllegal := by
  refine fun w => ⟨decode_eq_illegalFunct3_iff, decode_eq_illegalShiftImm_iff, decode_eq_illegalRKey_iff, fun f d => ?_⟩
  obtain ⟨-, hf⟩ | ⟨-, hf⟩ | ⟨-, hf⟩ | ⟨-, hf⟩ := decode_eq_illegal_iff.mp d
  · exact .inl hf
  · exact .inr (.inl hf)
  · exact .inr (.inr (.inl hf))
  · exact .inr (.inr (.inr hf))

/-! ## The halting words (R121, R240 to R244) -/

/-- A SYSTEM word but those of ECALL and EBREAK has other upper bits than they have (R242). -/
theorem decodeSystem_other {w : Word} (h : opcodeField w = 0x73#7) (hecall : w ≠ 0x00000073#32)
    (hebreak : w ≠ 0x00100073#32) : decodeSystem w = .systemOther (upperField w) := by
  have hu {u : BitVec 25} {v : Word} (hv : encodeHalt u 0x73#7 = v) (hw : w ≠ v) : upperField w ≠ u := fun e =>
    hw ((encodeHalt_of_fields h e).symm.trans hv)
  rw [decodeSystem, if_neg (hu (by decide) hecall), if_neg (hu (by decide) hebreak)]

/-- Settles O35: the two opcodes fix the row, and every row's meaning is the one halt effect. -/
theorem haltingWords : Obligations.HaltingWords :=
  ⟨by decide, by decide, fun _ h hecall hebreak => by rw [decode_of_system h, decodeSystem_other h hecall hebreak]; rfl,
    fun _ h => decode_of_zero h, fun s _ => ⟨halt_spec s, halt_spec s, halt_spec s, halt_spec s⟩⟩

end Sys2Proof
end

section
/-! The immediates of a word as numbers, from its bits (R108 to R112). -/

namespace Sys2Proof.Machine

/-- The one bit of a sign field counts negatively. -/
theorem toInt_signBit (b : BitVec 1) : b.toInt = -b.toNat := by
  decide +revert

theorem toInt_append_of_ne_zero {m n : Nat} (hm : m ≠ 0) (x : BitVec m) (y : BitVec n) :
    (x ++ y).toInt = 2 ^ n * x.toInt + y.toNat := by
  rw [BitVec.toInt_append, if_neg (by simpa using hm)]

theorem toInt_imm12Word (imm : BitVec 12) : (imm12Word imm).toInt = imm.toInt :=
  BitVec.toInt_signExtend_of_le (by decide)

theorem toInt_immIField (w : Word) :
    (immIField w).toInt = -2048 * (w.extractLsb' 31 1).toNat + (w.extractLsb' 20 11).toNat := by
  have hsplit : w.extractLsb' 20 12 = w.extractLsb' 31 1 ++ w.extractLsb' 20 11 :=
    (BitVec.extractLsb'_append_extractLsb'_eq_extractLsb' (len₂ := 1) (len₁ := 11) rfl).symm
  simp (disch := decide) only [immIField, hsplit, toInt_append_of_ne_zero, toInt_signBit]
  omega

theorem toInt_immSField (w : Word) :
    (immSField w).toInt =
      -2048 * (w.extractLsb' 31 1).toNat + 32 * (w.extractLsb' 25 6).toNat + (w.extractLsb' 7 5).toNat := by
  have hsplit : w.extractLsb' 25 7 = w.extractLsb' 31 1 ++ w.extractLsb' 25 6 :=
    (BitVec.extractLsb'_append_extractLsb'_eq_extractLsb' (len₂ := 1) (len₁ := 6) rfl).symm
  simp (disch := decide) only [immSField, hsplit, toInt_append_of_ne_zero, toInt_signBit]
  omega

theorem toInt_branchOffset_immBField (w : Word) :
    (branchOffset (immBField w)).toInt =
      -4096 * (w.extractLsb' 31 1).toNat + 2048 * (w.extractLsb' 7 1).toNat + 32 * (w.extractLsb' 25 6).toNat +
        2 * (w.extractLsb' 8 4).toNat := by
  rw [branchOffset, BitVec.toInt_signExtend_of_le (by decide)]
  simp (disch := decide) only [immBField, toInt_append_of_ne_zero, toInt_signBit, BitVec.toNat_ofNat]
  omega

theorem toInt_jumpOffset_immJField (w : Word) :
    (jumpOffset (immJField w)).toInt =
      -1048576 * (w.extractLsb' 31 1).toNat + 4096 * (w.extractLsb' 12 8).toNat +
        2048 * (w.extractLsb' 20 1).toNat + 2 * (w.extractLsb' 21 10).toNat := by
  rw [jumpOffset, BitVec.toInt_signExtend_of_le (by decide)]
  simp (disch := decide) only [immJField, toInt_append_of_ne_zero, toInt_signBit, BitVec.toNat_ofNat]
  omega

theorem toNat_imm20Word (imm : BitVec 20) : (imm20Word imm).toNat = 4096 * imm.toNat := by
  rw [imm20Word, BitVec.toNat_append, BitVec.toNat_ofNat, Nat.zero_mod, Nat.or_zero, Nat.shiftLeft_eq, Nat.mul_comm]

/-- Settles O6: parity and range follow from the values, each field being below 2 to its width. -/
theorem scrambledImmediateValues : Obligations.ScrambledImmediateValues := by
  intro w
  rw [toInt_branchOffset_immBField, toInt_jumpOffset_immJField]
  exact ⟨⟨rfl, by omega, by omega, by omega⟩, toNat_imm20Word _, rfl, by omega, by omega, by omega⟩

/-- Settles O7: the extension to 32 bits keeps the signed value of the 12. -/
theorem signedTwelveBitImmediates : Obligations.SignedTwelveBitImmediates := fun w =>
  ⟨(toInt_imm12Word _).trans (toInt_immIField w), (toInt_imm12Word _).trans (toInt_immSField w)⟩

end Sys2Proof.Machine
end

section
/-! Whole effects: what the expansion of `li` leaves (R127), and an instruction whose destination is x0 (R32, R123). -/

namespace Sys2Proof.Machine

open Sys2Proof.Claims

/-! ## The expansion of `li` (R127, R140, R180) -/

theorem execAll_cons {i : Instr} {is : List Instr} {s t : State} (h : exec i s = .next t) :
    execAll (i :: is) s = execAll is t := by
  simp only [execAll, h]

theorem execAll_singleton {i : Instr} {s t : State} (h : exec i s = .next t) : execAll [i] s = .next t :=
  execAll_cons h

theorem exec_lui (rd : RegIdx) (imm20 : BitVec 20) (s : State) :
    ∃ t, exec (.lui rd imm20) s = .next t ∧ WritesReg s t rd (imm20Word imm20) (s.pc + 4) :=
  writeBack_spec ..

theorem exec_addi (rd rs1 : RegIdx) (imm : BitVec 12) (s : State) :
    ∃ t, exec (.addi rd rs1 imm) s = .next t ∧ WritesReg s t rd (s.reg rs1 + imm12Word imm) (s.pc + 4) :=
  writeBack_spec ..

theorem SameShell.trans {s t u : State} (h : SameShell s t) (h' : SameShell t u) : SameShell s u := by
  obtain ⟨hcfg, hword, hop, hst⟩ := h
  obtain ⟨hcfg', hword', hop', hst'⟩ := h'
  exact ⟨hcfg'.trans hcfg, hword'.trans hword, hop'.trans hop, hst'.trans hst⟩

theorem OnlyReg.same {s t : State} {rd : RegIdx} {v : Word} (h : OnlyReg s t rd v) (hrd : rd ≠ 0) : t.reg rd = v := by
  rw [h rd, if_neg hrd, if_pos rfl]

theorem OnlyReg.other {s t : State} {rd r : RegIdx} {v : Word} (h : OnlyReg s t rd v) (hr : r ≠ rd) :
    t.reg r = s.reg r := by
  rw [h r, if_neg hr]
  split
  case isTrue h0 => rw [h0, State.reg_zero]
  case isFalse => rfl

/-- Rounding the upper 20 bits by 0x800 makes up for the sign of the low 12 (R127). -/
theorem imm20Word_add_imm12Word (imm : Word) :
    imm20Word ((imm + 0x800#32).extractLsb' 12 20) + imm12Word (imm.extractLsb' 0 12) = imm := by
  have hx := imm.isLt
  apply BitVec.eq_of_toNat_eq
  rw [BitVec.toNat_add, toNat_imm20Word, imm12Word, BitVec.signExtend, BitVec.toNat_ofInt, BitVec.toInt_eq_toNat_cond]
  simp only [BitVec.extractLsb'_toNat, BitVec.toNat_add, BitVec.toNat_ofNat, Nat.shiftRight_eq_div_pow]
  omega

/-- Settles O59: ADDI alone gives an immediate in 12-bit range, and otherwise it adds the low bits to what LUI left in
rd. -/
theorem loadImmediateExpansion : Obligations.LoadImmediateExpansion := by
  intro rd imm s hrd
  unfold expandLi
  split
  case isTrue hfits =>
    obtain ⟨t, ht, -, hreg, hmem, hshell⟩ := exec_addi rd 0 (imm.extractLsb' 0 12) s
    refine ⟨t, execAll_singleton ht, ?_, fun r hr => hreg.other hr, hmem, hshell⟩
    rw [hreg.same hrd, State.reg_zero]
    exact (BitVec.zero_add _).trans (eq_of_beq hfits)
  case isFalse =>
    obtain ⟨t, ht, -, hreg, hmem, hshell⟩ := exec_lui rd ((imm + 0x800#32).extractLsb' 12 20) s
    obtain ⟨u, hu, -, hreg', hmem', hshell'⟩ := exec_addi rd rd (imm.extractLsb' 0 12) t
    refine ⟨u, (execAll_cons ht).trans (execAll_singleton hu), ?_, fun r hr => (hreg'.other hr).trans (hreg.other hr),
      fun a => (hmem' a).trans (hmem a), ?_⟩
    · rw [hreg'.same hrd, hreg.same hrd, imm20Word_add_imm12Word]
    · exact hshell.trans hshell'

/-! ## A discarded destination (R32, R123) -/

/-- An instruction with a destination neither halts nor stores (R34, R35). -/
theorem not_halts_nor_stores_of_mem_destinations {i : Instr} {s : State} {r : RegIdx} (hd : r ∈ destinations i s) :
    halts i = false ∧ ∀ a w, memoryAccess i s ≠ some (a, w, .store) := by
  cases i with
  | sb | sh | sw | ecall | ebreak | systemOther | zeroHalt => cases hd
  | _ => exact ⟨rfl, nofun⟩

/-- Settles O43: it completes, keeps every register but its one destination, which reads 0 before and after, and stores
nothing. -/
theorem discardedDestinationChangesOnlyPc : Obligations.DiscardedDestinationChangesOnlyPc := by
  intro i s hd ok
  have h0 : 0 ∈ destinations i s := hd ▸ List.mem_singleton_self 0
  obtain ⟨hhalts, hstore⟩ := not_halts_nor_stores_of_mem_destinations h0
  obtain ⟨t, hx, hpc⟩ := exec_pc ok
  obtain ⟨t', hx', c⟩ := exec_cases i s
  obtain rfl : t = t' := by simpa using hx.symm.trans hx'
  refine ⟨t, hx, hpc, ?_⟩
  cases c with
  | faults f h => cases ok.symm.trans h
  | halted h => cases hhalts.symm.trans h
  | completes _ _ shell _ regs mem =>
    refine ⟨fun r => ?_, ?_, shell⟩
    · by_cases hr : r = 0
      · rw [hr, State.reg_zero, State.reg_zero]
      · exact regs r (by simpa [hd] using hr)
    · obtain hkept | ⟨a, w, v, ha, -⟩ := mem
      · exact fun a => by rw [hkept]
      · exact absurd ha (hstore a w)

end Sys2Proof.Machine
end

section
/-! LUI, JAL and JALR: their words, the values they write and the targets they go to, as numbers (R140 to R142). -/

namespace Sys2Proof.Machine

/-- A word plus a sign-extended immediate or offset, as a number modulo 2^32 (R38, R108, R112). -/
theorem toNat_add_signExtend {n : Nat} (a : Word) (x : BitVec n) :
    ((a + x.signExtend 32).toNat : Int) = (a.toNat + x.toInt) % 2 ^ 32 := by
  rw [BitVec.signExtend, BitVec.toNat_add, BitVec.toNat_ofInt]
  omega

/-- Clearing bit 0 gives the even part (R142). -/
theorem toNat_and_clearBit0 (a : Word) : (a &&& 0xFFFFFFFE#32).toNat = a.toNat / 2 * 2 := by
  have hmask : a &&& 0xFFFFFFFE#32 = a >>> 1 <<< 1 := (BitVec.shiftLeft_ushiftRight (x := a) (n := 1)).symm
  rw [hmask, BitVec.toNat_shiftLeft, BitVec.toNat_ushiftRight, Nat.shiftLeft_eq, Nat.shiftRight_eq_div_pow]
  omega

theorem toNat_linkAddress (s : State) : (linkAddress s).toNat = (s.pc.toNat + 4) % 2 ^ 32 :=
  BitVec.toNat_add ..

theorem toNat_jalTarget (s : State) (offset : BitVec 21) :
    ((jalTarget s offset).toNat : Int) = (s.pc.toNat + offset.toInt) % 2 ^ 32 :=
  toNat_add_signExtend ..

theorem toNat_jalrTarget_pcRelative {s : State} (mode : s.cfg.jalrMode = .pcRelative) (rs1 : RegIdx)
    (imm : BitVec 12) :
    ((jalrTarget s rs1 imm).toNat : Int) = (s.pc.toNat + imm.toInt + (s.reg rs1).toNat) % 2 ^ 32 := by
  have hsum := toNat_add_signExtend s.pc imm
  simp only [jalrTarget, mode, imm12Word, BitVec.toNat_add] at hsum ⊢
  omega

theorem toNat_jalrTarget_standard {s : State} (mode : s.cfg.jalrMode = .standard) (rs1 : RegIdx) (imm : BitVec 12) :
    ((jalrTarget s rs1 imm).toNat : Int) = ((s.reg rs1).toNat + imm.toInt) % 2 ^ 32 / 2 * 2 := by
  rw [← toNat_add_signExtend]
  simp only [jalrTarget, mode, imm12Word, toNat_and_clearBit0]
  omega

theorem exec_jal (rd : RegIdx) (offset : BitVec 21) (s : State) :
    ∃ t, exec (.jal rd offset) s = .next t ∧ WritesReg s t rd (linkAddress s) (jalTarget s offset) :=
  jumpAndLink_spec ..

/-- The target is computed from the old state, also for rd = rs1 (R34). -/
theorem exec_jalr (rd rs1 : RegIdx) (imm : BitVec 12) (s : State) :
    ∃ t, exec (.jalr rd rs1 imm) s = .next t ∧ WritesReg s t rd (linkAddress s) (jalrTarget s rs1 imm) :=
  jumpAndLink_spec ..

/-- Settles O15: the link and the target are sums modulo 2^32, and the word of an even offset is a well-formed one. -/
theorem jalResult : Obligations.JalResult := by
  intro rd offset s
  obtain ⟨t, ht, heffect⟩ := exec_jal rd offset s
  refine ⟨fun even => decodeOfEncode (.jal rd offset) ?_, t, _, _, ht, toNat_linkAddress s, toNat_jalTarget s offset,
    heffect⟩
  rw [Instr.wellFormed, even, Bool.not_false]

/-- Settles O16: in each mode the target is that mode's number, of the old register. -/
theorem jalrResult : Obligations.JalrResult := by
  intro rd rs1 imm s
  obtain ⟨t, ht, heffect⟩ := exec_jalr rd rs1 imm s
  exact ⟨decodeOfEncode (.jalr rd rs1 imm) rfl, t, _, _, ht, toNat_linkAddress s,
    fun mode => toNat_jalrTarget_pcRelative mode rs1 imm, fun mode => toNat_jalrTarget_standard mode rs1 imm, heffect⟩

/-- Settles O14: twelve zeros below the 20 bits multiply them by 2^12. -/
theorem luiResult : Obligations.LuiResult := by
  intro rd imm20 s
  obtain ⟨t, ht, heffect⟩ := exec_lui rd imm20 s
  exact ⟨decodeOfEncode (.lui rd imm20) rfl, t, _, ht, (toNat_imm20Word imm20).trans (Nat.mul_comm ..), heffect⟩

end Sys2Proof.Machine
end

section
/-! Loads and stores: their words, the addresses they access as numbers, their two faults, and the values they read and
store (R150 to R161). -/

namespace Sys2Proof.Machine

open Sys2Proof.Claims

/-! ## Addresses (R150, R151) -/

/-- The address of a load as the number of R150, with the bias of its width under ObservedBias (R151). -/
theorem loadAddress_eq_effective (s : State) (w : Width) (rs1 : RegIdx) (imm : BitVec 12) :
    loadAddress s w rs1 imm = effective s rs1 imm +
      (if s.cfg.subwordLoadMode = .observedBias then loadBias .observedBias w else 0) := by
  rw [loadAddress, effectiveAddress_toNat]
  cases s.cfg.subwordLoadMode <;> rfl

/-- The biased access of a load stays inside the word at its effective address (R151). -/
theorem loadBias_add_bytes_le_four (mode : SubwordLoadMode) (w : Width) : loadBias mode w + w.bytes ≤ 4 := by
  cases mode <;> cases w <;> decide

/-! ## The extensions of the value read (R152, R153, R155, R156) -/

/-- The low `n` bits of a word that fits in them, sign-extended, as a number. -/
theorem toInt_signExtend_extractLsb'_of_lt {n : Nat} {v : Word} (hn : n ≤ 32) (hv : v.toNat < 2 ^ n) :
    ((v.extractLsb' 0 n).signExtend 32).toInt = if 2 * v.toNat < 2 ^ n then (v.toNat : Int) else v.toNat - 2 ^ n := by
  have hlow : (v.extractLsb' 0 n).toNat = v.toNat := by
    rw [BitVec.extractLsb'_toNat, Nat.shiftRight_zero, Nat.mod_eq_of_lt hv]
  rw [BitVec.toInt_signExtend_of_le hn, BitVec.toInt_eq_toNat_cond, hlow]
  push_cast
  rfl

theorem toInt_signExtendByte {v : Word} (hv : v.toNat < 256) :
    (signExtendByte v).toInt = if v.toNat < 128 then (v.toNat : Int) else v.toNat - 256 := by
  have hvalue := toInt_signExtend_extractLsb'_of_lt (n := 8) (by decide) hv
  rw [signExtendByte, hvalue]
  split <;> split <;> omega

theorem toInt_signExtendHalf {v : Word} (hv : v.toNat < 65536) :
    (signExtendHalf v).toInt = if v.toNat < 32768 then (v.toNat : Int) else v.toNat - 65536 := by
  have hvalue := toInt_signExtend_extractLsb'_of_lt (n := 16) (by decide) hv
  rw [signExtendHalf, hvalue]
  split <;> split <;> omega

theorem toNat_zeroExtendByte {v : Word} (hv : v.toNat < 256) : (zeroExtendByte v).toNat = v.toNat := by
  simp only [zeroExtendByte, BitVec.toNat_setWidth, BitVec.extractLsb'_toNat, Nat.shiftRight_zero]
  omega

theorem toNat_zeroExtendHalf {v : Word} (hv : v.toNat < 65536) : (zeroExtendHalf v).toNat = v.toNat := by
  simp only [zeroExtendHalf, BitVec.toNat_setWidth, BitVec.extractLsb'_toNat, Nat.shiftRight_zero]
  omega

/-- The low bits of a value that was zero-extended are the value. -/
theorem extractLsb'_setWidth_self {n : Nat} (hn : n ≤ 32) (x : BitVec n) : (x.setWidth 32).extractLsb' 0 n = x := by
  rw [BitVec.extractLsb'_setWidth_of_le (by omega), BitVec.extractLsb'_eq_self]

/-! ## Loads (R150 to R156) -/

/-- A load whose read succeeds writes the extended value and changes nothing else but the pc. -/
theorem load_of_memRead_ok {w : Width} (e : Word → Word) (rd : RegIdx) {rs1 : RegIdx} {imm : BitVec 12} {s : State}
    {v : Word} (h : memRead s.cfg s.mem (loadAddress s w rs1 imm) w .load = .ok v) :
    ∃ t, load w e rd rs1 imm s = .next t ∧ WritesReg s t rd (e v) (s.pc + 4) := by
  simp only [load, h]
  exact writeBack_spec ..

/-- A load row from its word, its meaning as a `load`, its bias, and what its extension makes of a number of its
width. -/
theorem loadRow_of_load {funct3 : BitVec 3} {con : RegIdx → RegIdx → BitVec 12 → Instr} {w : Width}
    {e : Word → Word} {P : Nat → Word → Prop}
    (hword : ∀ rd rs1 imm, decode (encodeI imm rs1 funct3 rd 0x03#7) = .instr (con rd rs1 imm))
    (hexec : ∀ rd rs1 imm s, exec (con rd rs1 imm) s = load w e rd rs1 imm s)
    (hvalue : ∀ v : Word, v.toNat < 256 ^ w.bytes → P v.toNat (e v)) :
    LoadRow funct3 con w (loadBias .observedBias w) P := by
  intro rd rs1 imm s a ha
  obtain rfl : a = loadAddress s w rs1 imm := ha.trans (loadAddress_eq_effective s w rs1 imm).symm
  rw [hexec]
  refine ⟨hword rd rs1 imm, fun hout => ?_, fun hcross => ?_, fun hpass => ?_⟩
  · rw [load_fault (accessFault_of_outOfRange hout)]; exact raise_spec ..
  · rw [load_fault (accessFault_of_crosses hcross)]; exact raise_spec ..
  · obtain ⟨t, ht, heffect⟩ := load_of_memRead_ok e rd (memRead_eq_ok (passes_iff.mp hpass))
    have hnumber := s.mem.readLE_toNat_eq_littleEndianValue (loadAddress s w rs1 imm) w
    exact ⟨t, _, ht, hnumber ▸ hvalue _ (hnumber ▸ littleEndianValue_lt ..), heffect⟩

/-- Settles O18: a word is read as it stands, without a bias. -/
theorem loadWordResult : Obligations.LoadWordResult :=
  loadRow_of_load (w := .word) (fun rd rs1 imm => decodeOfEncode (.lw rd rs1 imm) rfl) (fun _ _ _ _ => rfl)
    fun _ _ => rfl

/-- Settles O19: the four rows differ in width and extension only. -/
theorem subwordLoadResults : Obligations.SubwordLoadResults :=
  ⟨loadRow_of_load (w := .byte) (fun rd rs1 imm => decodeOfEncode (.lb rd rs1 imm) rfl) (fun _ _ _ _ => rfl)
      fun _ => toInt_signExtendByte,
    loadRow_of_load (w := .half) (fun rd rs1 imm => decodeOfEncode (.lh rd rs1 imm) rfl) (fun _ _ _ _ => rfl)
      fun _ => toInt_signExtendHalf,
    loadRow_of_load (w := .byte) (fun rd rs1 imm => decodeOfEncode (.lbu rd rs1 imm) rfl) (fun _ _ _ _ => rfl)
      fun _ => toNat_zeroExtendByte,
    loadRow_of_load (w := .half) (fun rd rs1 imm => decodeOfEncode (.lhu rd rs1 imm) rfl) (fun _ _ _ _ => rfl)
      fun _ => toNat_zeroExtendHalf⟩

/-! ## Stores (R157 to R160) -/

/-- A store row from its word and its meaning as a `store`. -/
theorem storeRow_of_store {funct3 : BitVec 3} {con : RegIdx → RegIdx → BitVec 12 → Instr} {w : Width}
    (hword : ∀ rs2 rs1 imm, decode (encodeS imm rs2 rs1 funct3 0x23#7) = .instr (con rs2 rs1 imm))
    (hexec : ∀ rs2 rs1 imm s, exec (con rs2 rs1 imm) s = store w rs2 rs1 imm s) : StoreRow funct3 con w := by
  intro rs2 rs1 imm s a hm ha
  obtain rfl : a = storeAddress s rs1 imm := ha.trans (storeAddress_eq_effective s rs1 imm).symm
  rw [hexec]
  refine ⟨hword rs2 rs1 imm, fun hout => ?_, fun hcross => ?_, fun hpass => store_spec hm (passes_iff.mp hpass)⟩
  · rw [store_fault (accessFault_of_outOfRange hout)]; exact raise_spec ..
  · rw [store_fault (accessFault_of_crosses hcross)]; exact raise_spec ..

/-- Settles O20: the row of `store` at the width of a word. -/
theorem storeWordResult : Obligations.StoreWordResult :=
  storeRow_of_store (fun rs2 rs1 imm => decodeOfEncode (.sw rs2 rs1 imm) rfl) fun _ _ _ _ => rfl

/-- Settles O21: the rows of `store` at the two narrower widths. -/
theorem subwordStoreResults : Obligations.SubwordStoreResults :=
  ⟨storeRow_of_store (fun rs2 rs1 imm => decodeOfEncode (.sb rs2 rs1 imm) rfl) fun _ _ _ _ => rfl,
    storeRow_of_store (fun rs2 rs1 imm => decodeOfEncode (.sh rs2 rs1 imm) rfl) fun _ _ _ _ => rfl⟩

/-! ## A load after a store of a word (R161) -/

/-- A load at the base and displacement of the SW before it reads the part of the stored word that its bias and width
name, and gives what its extension makes of those bits (R151, R161). -/
theorem load_after_store_word {w : Width} (e : Word → Word) (f : BitVec (8 * w.bytes) → Word)
    (hext : ∀ x, e (x.setWidth 32) = f x) {rs2 rs1 rd : RegIdx} {imm : BitVec 12} {s : State}
    (hm : s.mem.wf) (hrd : rd ≠ 0) (ok : accessFault s.cfg (storeAddress s rs1 imm) .word .store = none) :
    ∃ u, load w e rd rs1 imm (s.setMem (s.mem.writeLE (storeAddress s rs1 imm) (s.reg rs2) .word)).advance = .next u ∧
      u.reg rd = if s.cfg.subwordLoadMode = .standard then f ((s.reg rs2).extractLsb' 0 _)
        else f ((s.reg rs2).extractLsb' (8 * loadBias .observedBias w) _) := by
  have hread := memRead_inside_word (k' := .load) hm (memWrite_eq_ok (v := s.reg rs2) ok)
    (loadBias_add_bytes_le_four s.cfg.subwordLoadMode w)
  obtain ⟨u, hu, -, hreg, -⟩ := load_of_memRead_ok e rd (rs1 := rs1) (imm := imm)
    (s := (s.setMem (s.mem.writeLE (storeAddress s rs1 imm) (s.reg rs2) .word)).advance) hread
  refine ⟨u, hu, ?_⟩
  rw [hreg.same hrd, hext]
  cases s.cfg.subwordLoadMode <;> rfl

/-- Settles O22: each load reads its part of the word stored, and its extension undoes the zeros above that part. -/
theorem storeThenLoadRoundTrip : Obligations.StoreThenLoadRoundTrip := by
  rintro rs2 rs1 rd imm s _ hm hrd rfl hpass
  have ok : accessFault s.cfg (storeAddress s rs1 imm) .word .store = none :=
    passes_iff.mp (storeAddress_eq_effective s rs1 imm ▸ hpass)
  refine ⟨_, store_ok ok, ?_, ?_, ?_, ?_, ?_⟩
  · obtain ⟨u, hu, hreg⟩ := load_after_store_word (w := .word) id id BitVec.setWidth_eq (rs2 := rs2) hm hrd ok
    exact ⟨u, hu, hreg.trans ((ite_self _).trans BitVec.extractLsb'_eq_self)⟩
  · exact load_after_store_word (w := .half) zeroExtendHalf (BitVec.setWidth 32)
      (fun x => congrArg (BitVec.setWidth 32) (extractLsb'_setWidth_self (by decide) x)) hm hrd ok
  · exact load_after_store_word (w := .half) signExtendHalf (BitVec.signExtend 32)
      (fun x => congrArg (BitVec.signExtend 32) (extractLsb'_setWidth_self (by decide) x)) hm hrd ok
  · exact load_after_store_word (w := .byte) zeroExtendByte (BitVec.setWidth 32)
      (fun x => congrArg (BitVec.setWidth 32) (extractLsb'_setWidth_self (by decide) x)) hm hrd ok
  · exact load_after_store_word (w := .byte) signExtendByte (BitVec.signExtend 32)
      (fun x => congrArg (BitVec.signExtend 32) (extractLsb'_setWidth_self (by decide) x)) hm hrd ok

end Sys2Proof.Machine
end

section
/-! The six branches: their words, and what each leaves when its condition holds and when it does not (R170 to R176). -/

namespace Sys2Proof.Machine

open Sys2Proof.Claims

theorem toNat_branchTarget (s : State) (offset : BitVec 13) :
    ((branchTarget s offset).toNat : Int) = (s.pc.toNat + offset.toInt) % 2 ^ 32 :=
  toNat_add_signExtend ..

/-- Everything a taken branch does, under both link parameters (R170, D14). -/
theorem branch_taken (offset : BitVec 13) (s : State) :
    ∃ t, branch true offset s = .next t ∧
      (s.cfg.branchLink = .noLink → OnlyPc s t (branchTarget s offset)) ∧
      (s.cfg.branchLink = .linkX1 → WritesReg s t 1 (s.pc + 4) (branchTarget s offset)) := by
  cases hlink : s.cfg.branchLink with
  | noLink =>
    obtain ⟨t, ht, heffect⟩ := branch_taken_noLink offset s hlink
    exact ⟨t, ht, fun _ => heffect, nofun⟩
  | linkX1 =>
    obtain ⟨t, ht, heffect⟩ := branch_taken_linkX1 offset s hlink
    exact ⟨t, ht, nofun, fun _ => heffect⟩

/-- A branch row from its word, well formed for an even offset, its meaning as a `branch`, and what its decided
condition says of the two registers. -/
theorem branchRow_of_branch {funct3 : BitVec 3} {con : RegIdx → RegIdx → BitVec 13 → Instr}
    {P : Word → Word → Prop} (taken : Word → Word → Bool) (htaken : ∀ a b, taken a b = true ↔ P a b)
    (hword : ∀ rs1 rs2 offset, encode (con rs1 rs2 offset) = encodeB offset rs2 rs1 funct3 0x63#7)
    (hwf : ∀ rs1 rs2 offset, (con rs1 rs2 offset).wellFormed = !offset.getLsbD 0)
    (hexec : ∀ rs1 rs2 offset s, exec (con rs1 rs2 offset) s = branch (taken (s.reg rs1) (s.reg rs2)) offset s) :
    BranchRow funct3 con P := by
  intro rs1 rs2 offset s
  rw [hexec, ← htaken]
  refine ⟨fun even => ?_, fun hholds => ?_, fun hfails => ?_⟩
  · rw [← hword]
    exact decodeOfEncode _ (by rw [hwf, even, Bool.not_false])
  · rw [hholds]
    obtain ⟨t, ht, heffect⟩ := branch_taken offset s
    exact ⟨t, _, ht, toNat_branchTarget s offset, heffect⟩
  · rw [Bool.eq_false_of_not_eq_true hfails]
    exact branch_not_taken offset s

/-- Settles O17: the six rows differ in funct3 and condition only. -/
theorem branchResults : Obligations.BranchResults :=
  ⟨branchRow_of_branch (· == ·) (fun _ _ => beq_iff_eq) (fun _ _ _ => rfl) (fun _ _ _ => rfl) fun _ _ _ _ => rfl,
    branchRow_of_branch (· != ·) (fun _ _ => bne_iff_ne) (fun _ _ _ => rfl) (fun _ _ _ => rfl) fun _ _ _ _ => rfl,
    branchRow_of_branch lessSigned lessSigned_iff (fun _ _ _ => rfl) (fun _ _ _ => rfl) fun _ _ _ _ => rfl,
    branchRow_of_branch (!lessSigned · ·) not_lessSigned_iff (fun _ _ _ => rfl) (fun _ _ _ => rfl) fun _ _ _ _ => rfl,
    branchRow_of_branch lessUnsigned lessUnsigned_iff (fun _ _ _ => rfl) (fun _ _ _ => rfl) fun _ _ _ _ => rfl,
    branchRow_of_branch (!lessUnsigned · ·) not_lessUnsigned_iff (fun _ _ _ => rfl) (fun _ _ _ => rfl)
      fun _ _ _ _ => rfl⟩

end Sys2Proof.Machine
end

section
/-! The immediate ALU rows: each word, and the value written as a number or bit by bit (R180 to R188). -/

namespace Sys2Proof.Machine

open Sys2Proof.Claims

/-- An instruction that only computes a value into `rd`: its word decodes to it, and it completes with that value
written and nothing else changed. -/
theorem decodes_and_writesReg {Q : Word → Prop} {i : Instr} {rd : RegIdx} {v : Word} {s : State}
    (hwf : i.wellFormed = true) (hexec : exec i s = writeBack rd v s) (hvalue : Q v) :
    decode (encode i) = .instr i ∧ ∃ t v, exec i s = .next t ∧ Q v ∧ WritesReg s t rd v (s.pc + 4) := by
  obtain ⟨t, ht, heffect⟩ := writeBack_spec rd v s
  exact ⟨decodeOfEncode i hwf, t, v, hexec.trans ht, hvalue, heffect⟩

/-! ## Comparisons (R181, R182) -/

theorem toNat_boolWord {b : Bool} {P : Prop} [Decidable P] (hP : b = true ↔ P) :
    (boolWord b).toNat = if P then 1 else 0 := by
  cases b with
  | true => exact (if_pos (hP.mp rfl)).symm
  | false => exact (if_neg fun h => Bool.false_ne_true (hP.mpr h)).symm

theorem toNat_imm12Word (imm : BitVec 12) : ((imm12Word imm).toNat : Int) = imm.toInt % 2 ^ 32 := by
  rw [imm12Word, BitVec.signExtend, BitVec.toNat_ofInt]
  omega

theorem lessSigned_imm12Word_iff (a : Word) (imm : BitVec 12) :
    lessSigned a (imm12Word imm) = true ↔ a.toInt < imm.toInt := by
  rw [lessSigned_iff, toInt_imm12Word]

theorem lessUnsigned_imm12Word_iff (a : Word) (imm : BitVec 12) :
    lessUnsigned a (imm12Word imm) = true ↔ (a.toNat : Int) < imm.toInt % 2 ^ 32 := by
  rw [lessUnsigned_iff, ← toNat_imm12Word, Int.ofNat_lt]

/-- Settles O23: 1 or 0 as the decided comparison with the extended immediate holds or not. -/
theorem setLessThanImmediateResults : Obligations.SetLessThanImmediateResults :=
  ⟨fun rd rs1 imm _ => decodes_and_writesReg (i := .slti rd rs1 imm) rfl rfl
      (toNat_boolWord (lessSigned_imm12Word_iff ..)),
    fun rd rs1 imm _ => decodes_and_writesReg (i := .sltiu rd rs1 imm) rfl rfl
      (toNat_boolWord (lessUnsigned_imm12Word_iff ..))⟩

/-! ## Arithmetic and logic (R180, R183 to R185) -/

/-- Bit 11 of an immediate fills the bits above it (R108). -/
theorem getLsbD_imm12Word (imm : BitVec 12) {k : Nat} (hk : k < 32) :
    (imm12Word imm).getLsbD k = imm.getLsbD (min k 11) := by
  rw [imm12Word, BitVec.getLsbD_signExtend, decide_eq_true hk, Bool.true_and]
  split
  case isTrue hlow => rw [Nat.min_eq_left (by omega)]
  case isFalse hhigh => rw [Nat.min_eq_right (by omega), BitVec.msb_eq_getLsbD_last]

/-- Settles O24: the sum is the one of `toNat_add_signExtend`, and each bit of the logic forms reads the extended
immediate's bit. -/
theorem immediateArithmeticAndLogicResults : Obligations.ImmediateArithmeticAndLogicResults :=
  ⟨fun rd rs1 imm _ => decodes_and_writesReg (i := .addi rd rs1 imm) rfl rfl (toNat_add_signExtend ..),
    fun rd rs1 imm _ =>
      ⟨decodes_and_writesReg (i := .xori rd rs1 imm) rfl rfl fun k hk => by
          rw [BitVec.getLsbD_xor, getLsbD_imm12Word imm hk],
        decodes_and_writesReg (i := .ori rd rs1 imm) rfl rfl fun k hk => by
          rw [BitVec.getLsbD_or, getLsbD_imm12Word imm hk],
        decodes_and_writesReg (i := .andi rd rs1 imm) rfl rfl fun k hk => by
          rw [BitVec.getLsbD_and, getLsbD_imm12Word imm hk]⟩⟩

/-! ## Shifts (R186 to R188) -/

theorem toNat_shiftLeft_eq_mul (a : Word) (k : Nat) : (a <<< k).toNat = a.toNat * 2 ^ k % 2 ^ 32 := by
  rw [BitVec.toNat_shiftLeft, Nat.shiftLeft_eq]

theorem toNat_ushiftRight_eq_div (a : Word) (k : Nat) : (a >>> k).toNat = a.toNat / 2 ^ k := by
  rw [BitVec.toNat_ushiftRight, Nat.shiftRight_eq_div_pow]

theorem toInt_sshiftRight_eq_div (a : Word) (k : Nat) : (a.sshiftRight k).toInt = a.toInt / 2 ^ k := by
  rw [BitVec.toInt_sshiftRight, Int.shiftRight_eq_div_pow, Nat.cast_pow, Nat.cast_ofNat]

theorem rotr_eq_rotateRight (a : Word) {k : Nat} (hk : k < 32) : rotr a k = a.rotateRight k := by
  rw [rotr, BitVec.rotateRight, BitVec.rotateRightAux, Nat.mod_eq_of_lt hk]

/-- Bit i of a rotation is bit i + k of the word, around its end (R13). -/
theorem getLsbD_rotr (a : Word) {k i : Nat} (hk : k < 32) (hi : i < 32) :
    (rotr a k).getLsbD i = a.getLsbD ((i + k) % 32) := by
  rw [rotr_eq_rotateRight a hk, BitVec.getLsbD_rotateRight, Nat.mod_eq_of_lt hk, decide_eq_true hi, Bool.true_and,
    Bool.cond_decide]
  split
  case isTrue hin => rw [show (i + k) % 32 = k + i by omega]
  case isFalse hout => rw [show (i + k) % 32 = i - (32 - k) by omega]

/-- Both modes of an arithmetic right shift (R188, R208; D13). -/
theorem shiftedRight_shiftRightArith (c : Config) (a : Word) {k : Nat} (hk : k < 32) :
    ShiftedRight c a k (shiftRightArith c.sraMode a k) := by
  unfold ShiftedRight shiftRightArith
  cases c.sraMode with
  | arithmetic => exact toInt_sshiftRight_eq_div a k
  | rotate => exact fun _ hi => getLsbD_rotr a hk hi

/-- Settles O25: the logical right shift is a division. -/
theorem shiftRightLogicalImmediateResult : Obligations.ShiftRightLogicalImmediateResult := fun rd rs1 shamt _ =>
  decodes_and_writesReg (i := .srli rd rs1 shamt) rfl rfl (toNat_ushiftRight_eq_div ..)

/-- Settles O26: SLLI is a product modulo 2^32, and SRAI has its mode's meaning, a shift amount being below 32. -/
theorem shiftLeftAndArithmeticImmediateResults : Obligations.ShiftLeftAndArithmeticImmediateResults :=
  ⟨fun rd rs1 shamt _ => decodes_and_writesReg (i := .slli rd rs1 shamt) rfl rfl (toNat_shiftLeft_eq_mul ..),
    fun rd rs1 shamt s => decodes_and_writesReg (i := .srai rd rs1 shamt) rfl rfl
      (shiftedRight_shiftRightArith s.cfg _ shamt.isLt)⟩

end Sys2Proof.Machine
end

section
/-! The register ALU rows: each word, and the value written as a number or bit by bit (R201 to R210). -/

namespace Sys2Proof.Machine

open Sys2Proof.Claims

/-- The row of an instruction that writes `f` of its two register values to `rd`, where `f` is what `P` asks for. The
other hypotheses hold by definition for every instruction of this shape. -/
theorem registerRow_of_writeBack {funct7 : BitVec 7} {funct3 : BitVec 3} {con : RegIdx → RegIdx → RegIdx → Instr}
    {P : Config → Word → Word → Word → Prop} (f : Config → Word → Word → Word)
    (hvalue : ∀ c a b, P c a b (f c a b))
    (hwf : ∀ rd rs1 rs2, (con rd rs1 rs2).wellFormed = true := by intros; rfl)
    (hencode : ∀ rd rs1 rs2, encode (con rd rs1 rs2) = encodeR funct7 rs2 rs1 funct3 rd 0x33#7 := by intros; rfl)
    (hexec : ∀ rd rs1 rs2 s, exec (con rd rs1 rs2) s = writeBack rd (f s.cfg (s.reg rs1) (s.reg rs2)) s := by
      intros; rfl) : RegisterRow funct7 funct3 con P := fun rd rs1 rs2 s => by
  rw [← hencode]
  exact decodes_and_writesReg (hwf rd rs1 rs2) (hexec rd rs1 rs2 s) (hvalue ..)

/-! ## Subtraction and comparisons (R202, R204, R205) -/

theorem toNat_sub_eq_emod (a b : Word) : ((a - b).toNat : Int) = ((a.toNat : Int) - b.toNat) % 2 ^ 32 := by
  rw [BitVec.toNat_sub]
  omega

/-- Settles O27: the difference of the unsigned readings modulo 2^32, and 1 or 0 as the decided comparison holds or
not. -/
theorem subtractAndCompareResults : Obligations.SubtractAndCompareResults :=
  ⟨registerRow_of_writeBack (fun _ a b => a - b) fun _ => toNat_sub_eq_emod,
    registerRow_of_writeBack (fun _ a b => boolWord (lessSigned a b)) fun _ a b => toNat_boolWord (lessSigned_iff a b),
    registerRow_of_writeBack (fun _ a b => boolWord (lessUnsigned a b)) fun _ a b =>
      toNat_boolWord (lessUnsigned_iff a b)⟩

/-! ## Shifts and addition (R201, R203, R207, R208) -/

/-- Only the low 5 bits of a register's shift amount count. -/
theorem shiftAmount_eq_mod (b : Word) : shiftAmount b = b.toNat % 32 := by
  rw [shiftAmount, BitVec.extractLsb'_toNat, Nat.shiftRight_zero]

/-- Settles O28: a product modulo 2^32 and a division, by 2 to the masked amount. -/
theorem registerShiftResults : Obligations.RegisterShiftResults :=
  ⟨registerRow_of_writeBack (fun _ a b => a <<< shiftAmount b) fun _ a b => by
      rw [toNat_shiftLeft_eq_mul, shiftAmount_eq_mod],
    registerRow_of_writeBack (fun _ a b => a >>> shiftAmount b) fun _ a b => by
      rw [toNat_ushiftRight_eq_div, shiftAmount_eq_mod]⟩

/-- Settles O30: the sum modulo 2^32, and SRA with its mode's meaning, the masked amount being below 32. -/
theorem addAndShiftArithmeticResults : Obligations.AddAndShiftArithmeticResults :=
  ⟨registerRow_of_writeBack (fun _ a b => a + b) fun _ => BitVec.toNat_add,
    registerRow_of_writeBack (fun c a b => shiftRightArith c.sraMode a (shiftAmount b)) fun c a b => by
      rw [shiftAmount_eq_mod]
      exact shiftedRight_shiftRightArith c a (Nat.mod_lt _ (by decide))⟩

/-! ## Logic (R206, R209, R210) -/

/-- Settles O29: each operation of words is the operation of their bits. -/
theorem registerLogicResults : Obligations.RegisterLogicResults :=
  ⟨registerRow_of_writeBack (fun _ a b => a ^^^ b) fun _ _ _ _ => BitVec.getLsbD_xor,
    registerRow_of_writeBack (fun _ a b => a ||| b) fun _ _ _ _ => BitVec.getLsbD_or,
    registerRow_of_writeBack (fun _ a b => a &&& b) fun _ _ _ _ => BitVec.getLsbD_and⟩

end Sys2Proof.Machine
end

section
/-! The multiply and divide rows: each word, the value written as a number, division by zero and overflow included, and
the law that ties the quotients to the remainders (R220 to R228). -/

namespace Sys2Proof.Machine

open Sys2Proof.Claims

/-! ## Narrowing and products (R13, R220 to R223) -/

theorem trunc32_natCast (n : Nat) : trunc32 n = BitVec.ofNat 32 n := BitVec.ofInt_natCast ..

theorem trunc32_add (i j : Int) : trunc32 (i + j) = trunc32 i + trunc32 j := BitVec.ofInt_add ..

theorem trunc32_mul (i j : Int) : trunc32 (i * j) = trunc32 i * trunc32 j := BitVec.ofInt_mul ..

theorem trunc32_toInt (a : Word) : trunc32 a.toInt = a := BitVec.ofInt_toInt

/-- By the sign of `p`: on either constructor of `Int` the model's shift computes to the library's shift by a `Nat`,
whichever type its amount was read at. -/
theorem highWord_eq_trunc32_ediv (p : Int) : highWord p = trunc32 (p / 2 ^ 32) := by
  cases p with
  | ofNat n => exact congrArg trunc32 (Int.shiftRight_eq_div_pow (Int.ofNat n) 32)
  | negSucc n => exact congrArg trunc32 (Int.shiftRight_eq_div_pow (Int.negSucc n) 32)

/-- The high word of a product that fits 64 signed bits, read signed. -/
theorem toInt_highWord {p : Int} (hlow : -2 ^ 63 ≤ p) (hhigh : p < 2 ^ 63) : (highWord p).toInt = p / 2 ^ 32 := by
  rw [highWord_eq_trunc32_ediv]
  exact BitVec.toInt_ofInt_eq_self (by decide) (by omega) (by omega)

/-- The high word of a product that fits 64 unsigned bits, read unsigned. -/
theorem toNat_highWord {p : Nat} (hp : p < 2 ^ 64) : (highWord p).toNat = p / 2 ^ 32 := by
  have hcast : (p : Int) / 2 ^ 32 = (p / 2 ^ 32 : Nat) := by norm_cast
  rw [highWord_eq_trunc32_ediv, hcast, trunc32_natCast, BitVec.toNat_ofNat]
  exact Nat.mod_eq_of_lt (by omega)

theorem toNat_mulLow (a b : Word) : (mulLow a b).toNat = a.toNat * b.toNat % 2 ^ 32 := by
  rw [mulLow, ← Nat.cast_mul, trunc32_natCast, BitVec.toNat_ofNat]

theorem toInt_mulHighSigned (a b : Word) : (mulHighSigned a b).toInt = a.toInt * b.toInt / 2 ^ 32 :=
  toInt_highWord (le_trans (by decide) BitVec.le_toInt_mul_toInt) (lt_of_le_of_lt BitVec.toInt_mul_toInt_le (by decide))

theorem toInt_mulHighSignedUnsigned (a b : Word) :
    (mulHighSignedUnsigned a b).toInt = a.toInt * b.toNat / 2 ^ 32 := by
  have hb : (b.toNat : Int) ≤ 2 ^ 32 := by exact_mod_cast b.isLt.le
  have hlow : -2 ^ 31 ≤ a.toInt := BitVec.le_toInt a
  have hhigh : a.toInt < 2 ^ 31 := BitVec.toInt_lt
  exact toInt_highWord (by nlinarith) (by nlinarith)

theorem toNat_mulHighUnsigned (a b : Word) : (mulHighUnsigned a b).toNat = a.toNat * b.toNat / 2 ^ 32 := by
  rw [mulHighUnsigned, ← Nat.cast_mul]
  exact toNat_highWord (lt_of_lt_of_eq (Nat.mul_lt_mul'' a.isLt b.isLt) (by norm_num))

/-- Settles O31: each product fits its 64 bits, so its low and high words are the remainder and the floor quotient. -/
theorem multiplyResults : Obligations.MultiplyResults :=
  ⟨registerRow_of_writeBack (fun _ => mulLow) fun _ => toNat_mulLow,
    registerRow_of_writeBack (fun _ => mulHighSigned) fun _ => toInt_mulHighSigned,
    registerRow_of_writeBack (fun _ => mulHighUnsigned) fun _ => toNat_mulHighUnsigned⟩

/-! ## Quotients and remainders (R224 to R227) -/

theorem remSigned_zero (a : Word) : remSigned a 0#32 = a := if_pos BitVec.toInt_zero

theorem remUnsigned_zero (a : Word) : remUnsigned a 0#32 = a := if_pos BitVec.toNat_zero

/-- Away from a zero divisor DIVU is the library's quotient, whose own value for divisor 0 is another one. -/
theorem divUnsigned_eq_udiv (a : Word) {b : Word} (hb : b.toNat ≠ 0) : divUnsigned a b = a / b := by
  rw [divUnsigned, if_neg hb, BitVec.udiv_def]

/-- REMU is the library's remainder at every divisor, 0 included. -/
theorem remUnsigned_eq_umod (a b : Word) : remUnsigned a b = a % b := by
  rw [remUnsigned, BitVec.umod_def]
  split
  case isTrue hzero => rw [hzero, Nat.mod_zero, BitVec.ofNat_toNat, BitVec.setWidth_eq]
  case isFalse => rfl

/-- A dividend in the overflow case is -2^31 as a word. -/
theorem eq_intMin_of_divOverflow {a b : Word} (h : divOverflow a b) : a = 0x80000000#32 :=
  BitVec.eq_of_toInt_eq (h.1.trans (by decide))

/-- Away from a zero divisor DIV is the truncated quotient narrowed, in the overflow case too: 2^31 narrows to
-2^31. -/
theorem divSigned_eq_trunc32 {a b : Word} (hb : b.toInt ≠ 0) : divSigned a b = trunc32 (a.toInt.tdiv b.toInt) := by
  rw [divSigned, if_neg hb]
  split
  case isTrue hover => rw [hover.1, hover.2]; decide
  case isFalse => rfl

/-- REM is the remainder of the truncated quotient in every case: by 0 it is the dividend, in the overflow case 0. -/
theorem remSigned_eq_trunc32 (a b : Word) : remSigned a b = trunc32 (a.toInt.tmod b.toInt) := by
  unfold remSigned
  split_ifs with hzero hover
  · rw [hzero, Int.tmod_zero, trunc32_toInt]
  · rw [hover.1, hover.2]; decide
  · rfl

/-- No remainder needs narrowing: it is read back as it was computed. -/
theorem toInt_remSigned (a b : Word) : (remSigned a b).toInt = a.toInt.tmod b.toInt := by
  rw [remSigned_eq_trunc32, ← BitVec.toInt_srem, trunc32_toInt]

/-- Away from a zero divisor and overflow no quotient needs narrowing. -/
theorem toInt_divSigned {a b : Word} (hb : b.toInt ≠ 0) (hover : ¬ divOverflow a b) :
    (divSigned a b).toInt = a.toInt.tdiv b.toInt := by
  have hne : a ≠ BitVec.intMin 32 ∨ b ≠ -1#32 := by
    by_contra! h
    obtain ⟨rfl, rfl⟩ := h
    exact hover (by decide)
  rw [divSigned_eq_trunc32 hb, ← BitVec.toInt_sdiv_of_ne_or_ne a b hne, trunc32_toInt]

/-- Settles O32: both are the library's operations but for DIVU by 0. -/
theorem unsignedDivisionResults : Obligations.UnsignedDivisionResults := by
  refine ⟨registerRow_of_writeBack (fun _ => divUnsigned) fun _ a b => ?_,
    registerRow_of_writeBack (fun _ => remUnsigned) fun _ a b => ?_⟩
  · split
    case isTrue hzero => rw [divUnsigned, if_pos hzero]; rfl
    case isFalse hb => rw [divUnsigned_eq_udiv a hb, BitVec.toNat_udiv]
  · rw [remUnsigned_eq_umod, BitVec.toNat_umod]
    split
    case isTrue hzero => rw [hzero, Nat.mod_zero]
    case isFalse => rfl

/-- Settles O33: the product fits 64 signed bits; the quotient and the remainder split on a zero divisor and on the
overflow case as the model does. -/
theorem mixedMultiplyAndSignedDivisionResults : Obligations.MixedMultiplyAndSignedDivisionResults := by
  refine ⟨registerRow_of_writeBack (fun _ => mulHighSignedUnsigned) fun _ => toInt_mulHighSignedUnsigned,
    registerRow_of_writeBack (fun _ => divSigned) fun _ a b => ?_,
    registerRow_of_writeBack (fun _ => remSigned) fun _ a b => ?_⟩
  · split_ifs with hzero hover
    · rw [divSigned, if_pos hzero]
    · rw [divSigned, if_neg hzero, if_pos hover, eq_intMin_of_divOverflow hover]
    · exact toInt_divSigned hzero hover
  · split_ifs with hzero hover
    · rw [remSigned, if_pos hzero]
    · rw [remSigned, if_neg hzero, if_pos hover]
    · exact toInt_remSigned a b

/-! ## The division law (R228) -/

theorem divSigned_mul_add_remSigned (a b : Word) : divSigned a b * b + remSigned a b = a := by
  by_cases hb : b = 0#32
  case pos =>
    subst hb
    rw [remSigned_zero, BitVec.mul_zero, BitVec.zero_add]
  case neg =>
    calc divSigned a b * b + remSigned a b
        = trunc32 (a.toInt.tdiv b.toInt) * trunc32 b.toInt + trunc32 (a.toInt.tmod b.toInt) := by
          rw [divSigned_eq_trunc32 (BitVec.toInt_ne.mpr hb), remSigned_eq_trunc32, trunc32_toInt]
      _ = trunc32 (a.toInt.tdiv b.toInt * b.toInt + a.toInt.tmod b.toInt) := by
          rw [trunc32_add, trunc32_mul]
      _ = a := by rw [Int.tdiv_mul_add_tmod, trunc32_toInt]

theorem divUnsigned_mul_add_remUnsigned (a b : Word) : divUnsigned a b * b + remUnsigned a b = a := by
  by_cases hb : b = 0#32
  case pos =>
    subst hb
    rw [remUnsigned_zero, BitVec.mul_zero, BitVec.zero_add]
  case neg =>
    apply BitVec.eq_of_toNat_eq
    rw [divUnsigned_eq_udiv a (BitVec.toNat_ne.mp hb), remUnsigned_eq_umod, BitVec.toNat_add, BitVec.toNat_mul,
      BitVec.toNat_udiv, BitVec.toNat_umod, Nat.mod_add_mod, Nat.div_add_mod', Nat.mod_eq_of_lt a.isLt]

theorem natAbs_remSigned_lt (a : Word) {b : Word} (hb : b ≠ 0) :
    (remSigned a b).toInt.natAbs < b.toInt.natAbs := by
  rw [toInt_remSigned, Int.natAbs_tmod]
  exact Nat.mod_lt _ (Int.natAbs_pos.mpr (BitVec.toInt_ne.mpr hb))

theorem toNat_remUnsigned_lt (a : Word) {b : Word} (hb : b ≠ 0) : (remUnsigned a b).toNat < b.toNat := by
  rw [remUnsigned_eq_umod, BitVec.toNat_umod]
  exact Nat.mod_lt _ (Nat.pos_of_ne_zero (BitVec.toNat_ne.mp hb))

theorem reg_of_writeBack {rd : RegIdx} {v : Word} {s t : State} (hrd : rd ≠ 0) (h : writeBack rd v s = .next t) :
    t.reg rd = v := by
  obtain ⟨_, ht, _, honly, _⟩ := writeBack_spec rd v s
  cases h.symm.trans ht
  exact honly.same hrd

/-- Settles O34: the four destinations hold the model's quotients and remainders of the same two registers. -/
theorem divisionLaw : Obligations.DivisionLaw := by
  intro rd rs1 rs2 s q r qu ru hrd hdiv hrem hdivu hremu
  have hq : q.reg rd = divSigned (s.reg rs1) (s.reg rs2) := reg_of_writeBack hrd hdiv
  have hr : r.reg rd = remSigned (s.reg rs1) (s.reg rs2) := reg_of_writeBack hrd hrem
  have hqu : qu.reg rd = divUnsigned (s.reg rs1) (s.reg rs2) := reg_of_writeBack hrd hdivu
  have hru : ru.reg rd = remUnsigned (s.reg rs1) (s.reg rs2) := reg_of_writeBack hrd hremu
  rw [hq, hr, hqu, hru]
  exact ⟨(divSigned_mul_add_remSigned ..).symm, (divUnsigned_mul_add_remUnsigned ..).symm,
    fun hb => ⟨natAbs_remSigned_lt _ hb, toNat_remUnsigned_lt _ hb⟩⟩

end Sys2Proof.Machine
end

section
/-! Faults: what a faulted step leaves, which faults each instruction can raise, and what a faulted session still
answers (R260 to R264, R268, R276). -/

namespace Sys2Proof.Machine

/-- An instruction that leaves a running core faulted raised the fault of its own access (R263). -/
theorem instrFault_of_exec_faulted {i : Instr} {s t : State} {f : FaultRecord} (run : s.status = .running)
    (h : exec i s = .next t) (hf : t.status = .faulted f) : instrFault i s = some f := by
  obtain ⟨t', h', c⟩ := exec_cases i s
  cases h.symm.trans h'
  exact (c.faulted_iff run f).mp hf

/-- An instruction that leaves a running core faulted changes nothing but the status (R264). -/
theorem eq_setStatus_of_exec_faulted {i : Instr} {s t : State} {f : FaultRecord} (run : s.status = .running)
    (h : exec i s = .next t) (hf : t.status = .faulted f) : t = s.setStatus (.faulted f) :=
  Host.Outcome.next.inj (h.symm.trans (exec_of_instrFault (instrFault_of_exec_faulted run h hf)))

/-- Settles O39: each of the three ways a step can fault (`step_cases`) sets the status of the state before the step or
of that state with the fetched word latched. -/
theorem faultsArePrecise : Obligations.FaultsArePrecise := by
  intro s t f run ht hf
  cases step_cases ht with
  | stands _ e => cases run.symm.trans (e ▸ hf)
  | fetchFault g _ h e =>
    obtain rfl : g = f := by simpa [e] using hf
    subst e
    exact ⟨rfl, rfl, rfl, rfl, .inl ⟨h, rfl, rfl⟩⟩
  | decodeFault w g _ h _ e =>
    subst e
    exact ⟨rfl, rfl, rfl, rfl, .inr ⟨w, h, rfl, rfl⟩⟩
  | runs w i _ h _ x _ =>
    obtain rfl : t = (latch w s).setStatus (.faulted f) := eq_setStatus_of_exec_faulted run x hf
    exact ⟨rfl, rfl, rfl, rfl, .inr ⟨w, h, rfl, rfl⟩⟩

/-- A one-byte access never crosses a page (R64). -/
theorem accessFault_byte_some {c : Config} {a : Nat} {k : AccessKind} {f : FaultRecord}
    (h : accessFault c a .byte k = some f) : f = .memOutOfRange a .byte k := by
  rw [accessFault_byte] at h
  split at h
  · exact (Option.some.inj h).symm
  · cases h

/-- Settles O40: the fault is that of the instruction's one access, and only a load or a store makes one. -/
theorem faultKindsByInstruction : Obligations.FaultKindsByInstruction := by
  intro i s t f run ht hf
  have h : instrFault i s = some f := instrFault_of_exec_faulted run ht hf
  cases i with
  | lb | lbu | sb => exact ⟨_, accessFault_byte_some h⟩
  | lh | lhu | lw | sh | sw => exact ⟨_, accessFault_some h⟩
  | _ => cases h

theorem step_of_faulted {s : State} {f : FaultRecord} (h : s.status = .faulted f) :
    step s = .fault (.sessionFaulted f) := by
  rw [step, h]
  rfl

theorem hostRefusal_of_faulted {s : State} {f : FaultRecord} (h : s.status = .faulted f) :
    hostRefusal s = some (.sessionFaulted f) := by
  rw [hostRefusal, h]

/-- Settles O53: both host operations ask `hostRefusal` first; reading a register does not ask the status. -/
theorem faultedSessionIsOver : Obligations.FaultedSessionIsOver := by
  intro s f a bytes r h
  have hr : hostRefusal s = some (.sessionFaulted f) := hostRefusal_of_faulted h
  exact ⟨step_of_faulted h, by rw [loadImage, hr], by rw [startRun, hr], dif_pos r.isLt⟩

end Sys2Proof.Machine
end

section
/-! Runs: the steps of a run under a bound, that its result does not depend on the bound, and the instructions that jump
to themselves (R48, R277, R279). -/

namespace Sys2Proof.Machine

open Sys2Proof.Claims

/-! ## A run under a bound (R276, R277) -/

theorem continueRun_zero_of_running {s : State} (run : s.status = .running) : continueRun 0 s = none :=
  if_pos run

theorem continueRun_succ_of_running {n : Nat} {s t : State} (run : s.status = .running) (h : step s = .next t) :
    continueRun (n + 1) s = continueRun n t := by
  rw [continueRun, if_pos run, h]

/-- A run that has ended stays as it is under every bound. -/
theorem continueRun_of_ended {s : State} (ended : s.status ≠ .running) (n : Nat) : continueRun n s = some s := by
  cases n <;> exact if_neg ended

/-- Settles O57: where the smaller bound sees the run ended, the larger one has taken the same steps. -/
theorem runResultIndependentOfFuel : Obligations.RunResultIndependentOfFuel := by
  intro n k s t h
  induction n generalizing s with
  | zero =>
    by_cases run : s.status = .running
    · cases (continueRun_zero_of_running run).symm.trans h
    · cases (continueRun_of_ended run 0).symm.trans h
      exact ⟨continueRun_of_ended run _, run⟩
  | succ n ih =>
    by_cases run : s.status = .running
    · obtain ⟨u, hu⟩ := step_total run
      rw [Nat.succ_add, continueRun_succ_of_running run hu]
      exact ih _ ((continueRun_succ_of_running run hu).symm.trans h)
    · cases (continueRun_of_ended run _).symm.trans h
      exact ⟨continueRun_of_ended run _, run⟩

theorem coreRun_succ_of_next (n : Nat) {s t : State} (h : step s = .next t) :
    Host.Core.run Sys2Proof.core (n + 1) s = Host.Core.run Sys2Proof.core n t := by
  have hcore : Sys2Proof.core.step s = .next t := h
  simp only [Host.Core.run, hcore]

/-- What every step keeps holds after any number of steps. -/
theorem coreRun_keeps {P : State → Prop} (hstep : ∀ s, P s → ∃ t, step s = .next t ∧ P t) (n : Nat)
    {s : State} (h : P s) : ∃ t : State, Host.Core.run Sys2Proof.core n s = .next t ∧ P t := by
  induction n generalizing s with
  | zero => exact ⟨s, rfl, h⟩
  | succ n ih =>
    obtain ⟨u, hu, hPu⟩ := hstep s h
    obtain ⟨t, ht, hPt⟩ := ih hPu
    exact ⟨t, (coreRun_succ_of_next n hu).trans ht, hPt⟩

/-- A run whose every step keeps the core running ends under no bound. -/
theorem continueRun_eq_none {P : State → Prop} (hrun : ∀ s, P s → s.status = .running)
    (hstep : ∀ s, P s → ∃ t, step s = .next t ∧ P t) (n : Nat) {s : State} (h : P s) :
    continueRun n s = none := by
  induction n generalizing s with
  | zero => exact continueRun_zero_of_running (hrun s h)
  | succ n ih =>
    obtain ⟨u, hu, hPu⟩ := hstep s h
    rw [continueRun_succ_of_running (hrun s h) hu]
    exact ih hPu

/-! ## Jumps to themselves (R141, R170, R279) -/

/-- An instruction that neither halts nor accesses memory completes and leaves memory as it is. -/
theorem exec_of_no_access {i : Instr} {s : State} (hhalts : halts i = false) (hacc : memoryAccess i s = none) :
    ∃ t, exec i s = .next t ∧ t.pc = NextPc i s ∧ t.mem = s.mem ∧ SameShell s t := by
  have ok : instrFault i s = none := by simp [instrFault, hacc]
  obtain ⟨t, hx, hpc⟩ := exec_pc ok
  obtain ⟨t', hx', c⟩ := exec_cases i s
  cases hx.symm.trans hx'
  cases c with
  | faults f h => cases ok.symm.trans h
  | halted h => cases hhalts.symm.trans h
  | completes _ _ shell _ _ mem =>
    obtain hkept | ⟨a, w, v, ha, -⟩ := mem
    · exact ⟨t, hx, hpc, hkept, shell⟩
    · cases hacc.symm.trans ha

/-- The fetch reads nothing but the parameters, the pc and the memory (R46). -/
theorem fetch_congr {s t : State} (hcfg : t.cfg = s.cfg) (hpc : t.pc = s.pc) (hmem : t.mem = s.mem) :
    fetch t = fetch s := by
  rw [fetch, fetch, hcfg, hpc, hmem]

/-- An instruction whose next pc is its own is fetched again by the next step. -/
theorem step_to_itself {s : State} {w : Word} {i : Instr} (run : s.status = .running) (h : fetch s = .ok w)
    (d : decode w = .instr i) (hhalts : halts i = false) (hacc : memoryAccess i s = none)
    (hself : NextPc i (latch w s) = s.pc) :
    ∃ t, step s = .next t ∧ t.status = .running ∧ t.pc = s.pc ∧ fetch t = .ok w := by
  obtain ⟨t, hx, hpc, hmem, hcfg, -, -, hstatus⟩ := exec_of_no_access (s := latch w s) hhalts (by simpa using hacc)
  have hpc' : t.pc = s.pc := hpc.trans hself
  exact ⟨t, (step_of_decode_instr run h d).trans hx, hstatus.trans run, hpc', (fetch_congr hcfg hpc' hmem).trans h⟩

/-- A running core at `pc` whose next instruction is `jal x0, 0` or `beq x0, x0, 0` (R279). -/
def JumpsToItself (pc : Word) (s : State) : Prop :=
  s.status = .running ∧ s.pc = pc ∧ (fetch s = .ok 0x0000006F#32 ∨ fetch s = .ok 0x00000063#32)

theorem nextPc_jal_zero (rd : RegIdx) (s : State) : NextPc (.jal rd 0) s = s.pc := by
  have hpc : NextPc (.jal rd 0) s = s.pc + (0#21).signExtend 32 := rfl
  simpa using hpc

theorem nextPc_beq_zero (r : RegIdx) (s : State) : NextPc (.beq r r 0) s = s.pc := by
  have hpc : NextPc (.beq r r 0) s = s.pc + (0#13).signExtend 32 := if_pos rfl
  simpa using hpc

theorem JumpsToItself.step {pc : Word} {s : State} (h : JumpsToItself pc s) :
    ∃ t, step s = .next t ∧ JumpsToItself pc t := by
  obtain ⟨run, rfl, h | h⟩ := h
  · have hdecode : decode 0x0000006F#32 = .instr (.jal 0 0) := by decide
    obtain ⟨t, ht, hrun, hpc, hfetch⟩ := step_to_itself run h hdecode rfl rfl (nextPc_jal_zero ..)
    exact ⟨t, ht, hrun, hpc, .inl hfetch⟩
  · have hdecode : decode 0x00000063#32 = .instr (.beq 0 0 0) := by decide
    obtain ⟨t, ht, hrun, hpc, hfetch⟩ := step_to_itself run h hdecode rfl rfl (nextPc_beq_zero ..)
    exact ⟨t, ht, hrun, hpc, .inr hfetch⟩

/-- Settles O46: every step keeps `JumpsToItself`. -/
theorem jumpToItselfNeverEnds : Obligations.JumpToItselfNeverEnds := by
  intro s n run h
  have hself : JumpsToItself s.pc s := ⟨run, rfl, h⟩
  obtain ⟨t, ht, hrun, hpc, -⟩ := coreRun_keeps (fun _ => JumpsToItself.step) n hself
  exact ⟨⟨t, ht, hrun, hpc⟩, continueRun_eq_none (fun _ => And.left) (fun _ => JumpsToItself.step) n hself⟩

end Sys2Proof.Machine
end

section
/-! Reset and the start of a run: the state a construction leaves, the invariant of the reset state, and the first step
of a run (R10, R276, R290, R291); and the test vectors' words, decoded. -/

namespace Sys2Proof.Machine

/-! ## Construction (R290) -/

@[simp] theorem State.construct_reg (cfg : Config) (r : RegIdx) : (State.construct cfg).reg r = 0 := by
  by_cases hr : r = 0
  · exact if_pos hr
  · simp [State.reg, State.construct, hr]

@[simp] theorem State.construct_byte (cfg : Config) (a : Nat) : (State.construct cfg).mem.byte a = 0 := rfl

/-- Settles O48: the registers are read one by one, every other field is as `State.construct` writes it. -/
theorem constructionState : Obligations.ConstructionState := by
  refine ⟨?_, rfl, rfl, rfl, rfl, rfl⟩
  rintro cfg _ rfl
  exact ⟨rfl, State.construct_reg cfg, rfl, rfl, rfl, rfl, State.construct_byte cfg⟩

theorem resetConfig_valid : resetConfig.valid := by decide

/-- Settles O50: the reset state is the construction of a legal geometry. -/
theorem resetMeetsInvariant : Obligations.ResetMeetsInvariant := State.construct_inv resetConfig_valid

/-! ## The start of a run (R276, R291) -/

theorem startRun_eq {s : State} (start : Word) (hs : s.status = .idle ∨ s.status = .halted) :
    startRun start s = .next ((s.setPc start).setStatus .running) := by
  rw [startRun, hostRefusal_eq_none.mpr hs]

/-- The fetch at an unbacked pc is out of range (R63). -/
theorem fetch_of_span_le {s : State} (h : s.cfg.span ≤ s.pc.toNat) :
    fetch s = .error (.memOutOfRange s.pc.toNat .word .fetch) :=
  memRead_eq_error (accessFault_outOfRange_iff.mpr h)

/-- Settles O54: a run starts with two field updates, and its first step raises the fault of the fetch. -/
theorem runStartsAtGivenAddress : Obligations.RunStartsAtGivenAddress := by
  intro s start hs
  refine ⟨_, startRun_eq start hs, rfl, rfl, fun _ => rfl, rfl, rfl, rfl, rfl, fun hspan => ?_⟩
  rw [step_of_fetch_error rfl (fetch_of_span_le hspan)]
  exact raise_spec ..

end Sys2Proof.Machine

namespace Sys2Proof

/-- An instruction's word, however it is written, decodes to the instruction. -/
theorem decode_of_encode_eq {w : Word} {i : Instr} (hi : i.wellFormed = true) (h : encode i = w) :
    decode w = .instr i :=
  h ▸ decodeOfEncode i hi

/-- Settles O3: each word is the one its instruction's format gives (R102 to R107). -/
theorem decodesWrittenOutWords : Obligations.DecodesWrittenOutWords := by
  refine ⟨?_, ?_, ?_, ?_, ?_, ?_, ?_, ?_, ?_, ?_, ?_, ?_, ?_⟩
  all_goals exact decode_of_encode_eq rfl (by decide)

end Sys2Proof
end
